-- ==== Sys2Proof/Word.lean ====
section
/-!
DEFINITION. The two widths of the RPVM engine: bytes of memory and 32-bit register values.
-/
namespace Sys2Proof

/-- One byte: a memory cell, an opcode or a register selector (00_scope.md R6). -/
abbrev Byte := BitVec 8

/-- One register value, immediate or address operand: 32 bits, unsigned (00_scope.md R6, 10_state.md R20). -/
abbrev Word := BitVec 32

end Sys2Proof
end

