-- ==== Sys2Proof/Syntax.lean ====
section
/-!
DEFINITION. The instructions of the RPVM engine: one constructor per row of the opcode table (30_encoding.md R63).
-/
namespace Sys2Proof

/-- An instruction with its operands as its bytes give them (30_encoding.md R61). A register operand is the whole
selector byte: all 256 values are legal (R64), and it is reduced modulo 8 only where a register is accessed. Keeping the
byte whole is a DESIGN CHOICE, safe (log entry 21). -/
inductive Instr where
  /-- 0x00, no effect (40_control.md R85). -/
  | nop
  /-- 0x01, clears `running` (40_control.md R88). -/
  | halt
  /-- 0x10, load a 32-bit immediate (41_data_movement.md R100). -/
  | loadRegImm (reg : Byte) (imm : Word)
  /-- 0x11, copy a register (41_data_movement.md R105). -/
  | movRegReg (dst src : Byte)
  /-- 0x20, add a register into a register (42_arithmetic.md R120). -/
  | addRegReg (dst src : Byte)
  /-- 0x21, subtract a register from a register (42_arithmetic.md R125). -/
  | subRegReg (dst src : Byte)
  /-- 0x30, unconditional absolute jump (43_control_flow.md R140). -/
  | jmp (addr : Word)
  /-- 0x31, jump if a register is zero (43_control_flow.md R145). -/
  | jz (reg : Byte) (addr : Word)
  /-- 0x40, output a register (44_output.md R163). -/
  | printReg (reg : Byte)
  /-- 0xF0, output a snapshot (44_output.md R165). -/
  | debugState
  deriving DecidableEq, Repr

end Sys2Proof
end

