-- ==== Sys2Proof/Decode.lean ====
section
/-!
DEFINITION. The opcode map, the decoder (total on any bytes, rejecting by name) and the encoder, all from the one
table of opcode bytes (30_encoding.md R61 to R68).
-/
namespace Sys2Proof

/-- The ten operations that the opcode byte selects (30_encoding.md R63). -/
inductive Opcode where
  | nop | halt | loadRegImm | movRegReg | addRegReg | subRegReg | jmp | jz | printReg | debugState
  deriving DecidableEq, Repr

/-- The opcode byte of each operation (30_encoding.md R63). -/
def Opcode.byte : Opcode → Byte
  | .nop => 0x00#8
  | .halt => 0x01#8
  | .loadRegImm => 0x10#8
  | .movRegReg => 0x11#8
  | .addRegReg => 0x20#8
  | .subRegReg => 0x21#8
  | .jmp => 0x30#8
  | .jz => 0x31#8
  | .printReg => 0x40#8
  | .debugState => 0xF0#8

/-- The length in bytes that the opcode alone fixes (30_encoding.md R63, R66). -/
def Opcode.length : Opcode → Nat
  | .nop => 1
  | .halt => 1
  | .loadRegImm => 6
  | .movRegReg => 3
  | .addRegReg => 3
  | .subRegReg => 3
  | .jmp => 5
  | .jz => 6
  | .printReg => 2
  | .debugState => 1

/-- Every operation once, in the order of the opcode table. -/
def Opcode.all : List Opcode :=
  [.nop, .halt, .loadRegImm, .movRegReg, .addRegReg, .subRegReg, .jmp, .jz, .printReg, .debugState]

/-- The whole opcode byte is compared; `none` for the 246 unknown bytes (30_encoding.md R63, R67). -/
def Opcode.ofByte (b : Byte) : Option Opcode := Opcode.all.find? (fun o => o.byte == b)

/-- The operation of an instruction. -/
def Instr.opcode : Instr → Opcode
  | .nop => .nop
  | .halt => .halt
  | .loadRegImm _ _ => .loadRegImm
  | .movRegReg _ _ => .movRegReg
  | .addRegReg _ _ => .addRegReg
  | .subRegReg _ _ => .subRegReg
  | .jmp _ => .jmp
  | .jz _ _ => .jz
  | .printReg _ => .printReg
  | .debugState => .debugState

/-- The length of an instruction in bytes, 1 to 6 (30_encoding.md R60, R61). -/
def Instr.length (i : Instr) : Nat := i.opcode.length

/-- The longest instruction, in bytes (30_encoding.md R60). -/
def maxLength : Nat := 6

/-- Four bytes, lowest address first, as one number: the lowest address is the most significant
(20_memory.md R42, R43). PRESUMED, unsafe: R42 takes the word's meaning from general knowledge (log entry 14). -/
def bigEndian (b0 b1 b2 b3 : Byte) : Word := b0 ++ b1 ++ b2 ++ b3

/-- What the decoder answers. -/
inductive Decoded where
  /-- An instruction, and the bytes after it. -/
  | ok (i : Instr) (rest : List Byte)
  /-- The first byte is one of the 246 unknown opcodes; it consumes only itself (30_encoding.md R66, R67). -/
  | unknownOpcode (op : Byte) (rest : List Byte)
  /-- The bytes end inside an instruction (or there is none). -/
  | truncated
  deriving DecidableEq, Repr

/-- Format R: one selector byte (30_encoding.md R61). -/
def decodeReg (mk : Byte → Instr) : List Byte → Decoded
  | r :: rest => .ok (mk r) rest
  | _ => .truncated

/-- Format RR: the `dst` selector, then the `src` selector (30_encoding.md R61). -/
def decodeRegReg (mk : Byte → Byte → Instr) : List Byte → Decoded
  | d :: r :: rest => .ok (mk d r) rest
  | _ => .truncated

/-- Format A: a 4-byte big-endian operand (30_encoding.md R61, R65). -/
def decodeWord (mk : Word → Instr) : List Byte → Decoded
  | b0 :: b1 :: b2 :: b3 :: rest => .ok (mk (bigEndian b0 b1 b2 b3)) rest
  | _ => .truncated

/-- Formats RI and RA: a selector byte, then a 4-byte big-endian operand (30_encoding.md R61, R65). -/
def decodeRegWord (mk : Byte → Word → Instr) : List Byte → Decoded
  | r :: b0 :: b1 :: b2 :: b3 :: rest => .ok (mk r (bigEndian b0 b1 b2 b3)) rest
  | _ => .truncated

/-- The operand bytes of each operation (30_encoding.md R61, R62). -/
def decodeOperands : Opcode → List Byte → Decoded
  | .nop, bs => .ok .nop bs
  | .halt, bs => .ok .halt bs
  | .loadRegImm, bs => decodeRegWord .loadRegImm bs
  | .movRegReg, bs => decodeRegReg .movRegReg bs
  | .addRegReg, bs => decodeRegReg .addRegReg bs
  | .subRegReg, bs => decodeRegReg .subRegReg bs
  | .jmp, bs => decodeWord .jmp bs
  | .jz, bs => decodeRegWord .jz bs
  | .printReg, bs => decodeReg .printReg bs
  | .debugState, bs => .ok .debugState bs

/-- Decode the instruction at the head of the bytes, lowest address first (30_encoding.md R60, R66). -/
def decode : List Byte → Decoded
  | [] => .truncated
  | op :: bs =>
    match Opcode.ofByte op with
    | none => .unknownOpcode op bs
    | some o => decodeOperands o bs

/-- The four bytes of a 32-bit operand, lowest address first (20_memory.md R42, R43). -/
def wordBytes (w : Word) : List Byte :=
  [w.extractLsb' 24 8, w.extractLsb' 16 8, w.extractLsb' 8 8, w.extractLsb' 0 8]

/-- The bytes of an instruction, lowest address first (30_encoding.md R61, R69). -/
def encode : Instr → List Byte
  | .nop => [Opcode.nop.byte]
  | .halt => [Opcode.halt.byte]
  | .loadRegImm reg imm => Opcode.loadRegImm.byte :: reg :: wordBytes imm
  | .movRegReg dst src => [Opcode.movRegReg.byte, dst, src]
  | .addRegReg dst src => [Opcode.addRegReg.byte, dst, src]
  | .subRegReg dst src => [Opcode.subRegReg.byte, dst, src]
  | .jmp addr => Opcode.jmp.byte :: wordBytes addr
  | .jz reg addr => Opcode.jz.byte :: reg :: wordBytes addr
  | .printReg reg => [Opcode.printReg.byte, reg]
  | .debugState => [Opcode.debugState.byte]

/-- The bytes, lowest address first, of an instruction whose low `nbits` bits are `w`, numbered as
spec/opcode_table.json numbers them (the first byte is bits 7..0, the second bits 15..8); the bytes above them,
up to the longest instruction, are 0. -/
def tableBytes (nbits w : Nat) : List Byte :=
  (List.range maxLength).map fun k => BitVec.ofNat 8 ((w % 2 ^ nbits) >>> (8 * k))

/-- The instruction the decoder reads from those bytes, `none` where it refuses. -/
def decodeTableWord (nbits w : Nat) : Option Instr :=
  match decode (tableBytes nbits w) with
  | .ok i _ => some i
  | .unknownOpcode _ _ => none
  | .truncated => none

end Sys2Proof
end

