-- ==== Sys2Proof/Config.lean ====
section
/-!
DEFINITION. What is fixed for one machine (00_scope.md R6): the memory size and the power-on contents, and the
free constants of the diagnostic texts whose wording the spec leaves open (DIAG_FORMAT).
-/
namespace Sys2Proof

/-- The implementation parameters that shape a machine at power-on (00_scope.md R6). -/
structure Config where
  /-- MEM_SIZE, at least 1 (`Config.WellFormed`). -/
  memSize : Nat
  /-- MEM_INIT, given by the cells that differ from `Config.unlistedByte`, addresses rising (70_reset R211). -/
  memInit : List Host.Cell
  deriving DecidableEq, Repr

/-- What a byte of memory that no cell lists reads as: 0x00, the reference configuration of MEM_INIT
(10_state.md R38, decision D5). Another MEM_INIT is given by listing its cells. DESIGN CHOICE (log entry 2), unsafe for a claim
that starts at `State.reset` and fetches bytes nobody loaded. -/
def Config.unlistedByte : Byte := 0x00#8

/-- The reference configuration: MEM_SIZE = 65536, MEM_INIT all 0x00 (00_scope.md R6). UNVERIFIED and DESIGN
CHOICE, unsafe for claims that start there (log entries 1 and 2). -/
def Config.reference : Config := { memSize := 65536, memInit := [] }

/-- The address a LOAD uses when the host gives none (00_scope.md R6, LOAD_ADDR). -/
def Config.defaultLoadAddr : Nat := 0

/-- IP_WIDTH: the bits a hardware IP needs to hold every value of [0, MEM_SIZE] (00_scope.md R6, 10_state.md R23).
For MEM_SIZE = N >= 1 the ceiling of log2 (N + 1) is the floor of log2 N plus one. -/
def Config.ipWidth (memSize : Nat) : Nat := Nat.log2 memSize + 1

/-! DIAG_FORMAT (44_output.md R162, decision D13): the words of the unknown-opcode, crash and summary lines, the
case of the hex digits, the radix of the offset and the order of the fields are open. Each constant below has no body,
so nothing can be proved of its value but what its type says: UNVERIFIED, safe (log entry 7). -/

/-- How a number whose form DIAG_FORMAT leaves open is written: a radix that has digits for every value below it, the
case of the digits above 9, and a least width reached by leading zeros. -/
structure NumeralStyle where
  /-- The radix less 2, for the radices 2 to 16. -/
  radixPick : Fin 15
  /-- The digits above 9 are upper case. -/
  upper : Bool
  /-- The least number of digits. -/
  width : Nat
  deriving DecidableEq, Repr, Inhabited

/-- The radix of a numeral, 2 to 16. -/
def NumeralStyle.radix (st : NumeralStyle) : Nat := st.radixPick.val + 2

/-- The orders in which the three fields of a summary line can stand. -/
inductive SummaryOrder where
  | stepsOpsElapsed | stepsElapsedOps | opsStepsElapsed | opsElapsedSteps | elapsedStepsOps | elapsedOpsSteps
  deriving DecidableEq, Repr, Inhabited

/-- DIAG_FORMAT: the unknown-opcode line names the opcode before the offset. -/
opaque Config.unknownOpFirst : Bool
/-- DIAG_FORMAT: the two hex digits of the opcode are upper case. -/
opaque Config.unknownHexUpper : Bool
/-- DIAG_FORMAT: how the unknown-opcode line writes the offset. -/
opaque Config.unknownOffsetStyle : NumeralStyle
/-- DIAG_FORMAT: the words before the first field of the unknown-opcode line. -/
opaque Config.unknownHead : List Char
/-- DIAG_FORMAT: the words between the two fields of the unknown-opcode line. -/
opaque Config.unknownMiddle : List Char
/-- DIAG_FORMAT: the words after the second field of the unknown-opcode line. -/
opaque Config.unknownTail : List Char
/-- DIAG_FORMAT: the line of a crash at address `addr` in a fetch of `n` bytes. -/
opaque Config.crashLine (addr n : Nat) : List Char
/-- DIAG_FORMAT: the line of a crash the rules give no cause for (60_exceptions.md R191: it has no instance). -/
opaque Config.crashLineUnexpected : List Char
/-- DIAG_FORMAT: the order of the fields of the summary line. -/
opaque Config.summaryOrder : SummaryOrder
/-- DIAG_FORMAT: the words before the first field of the summary line. -/
opaque Config.summaryHead : List Char
/-- DIAG_FORMAT: the words between the first two fields of the summary line. -/
opaque Config.summaryMiddle1 : List Char
/-- DIAG_FORMAT: the words between the last two fields of the summary line. -/
opaque Config.summaryMiddle2 : List Char
/-- DIAG_FORMAT: the words after the last field of the summary line. -/
opaque Config.summaryTail : List Char
/-- DIAG_FORMAT: how many digits after the point the summary line gives an elapsed time. -/
opaque Config.elapsedPlaces (elapsed : Rat) : Nat
/-- DIAG_FORMAT: an elapsed time that those digits do not hold exactly is rounded away from 0. -/
opaque Config.elapsedRoundsUp (elapsed : Rat) : Bool

end Sys2Proof
end

