-- ==== Sys2Proof/Machine/State.lean ====
section
/-!
DEFINITION. The state of one RPVM engine (10_state.md), the reasons a step can stop, and the state after power-on.
-/
namespace Sys2Proof.Machine

/-- The memory image by its listed cells; a byte that no cell lists reads as `Config.unlistedByte`. -/
abbrev Memory := List Host.Cell

/-- The canonical form of memory: addresses strictly rising, and no cell that holds what an unlisted address reads
as. Equal memories are then equal lists. -/
abbrev Memory.wf (m : Memory) : Prop :=
  m.Pairwise (fun x y => x.1 < y.1) ∧ ∀ x ∈ m, x.2 ≠ Config.unlistedByte

/-- The debug snapshot: IP and every register in register order (44_output.md R165, R170). -/
structure Snapshot where
  ip : Nat
  regs : Vector Word 8
  deriving DecidableEq, Repr

/-- The condition a raised fault reports (60_exceptions.md R181, R191). -/
inductive FaultInfo where
  /-- A fetch of `n` bytes at `addr` that leaves [0, MEM_SIZE) (R181). -/
  | outOfRange (addr n : Nat)
  /-- The driver's catch-all for a condition no rule covers; no step of this model raises it (R190, R191). -/
  | unexpected
  deriving DecidableEq, Repr

/-- The elapsed seconds the host reports at the end of a run: a draw under no law (10_state.md R30,
60_exceptions.md R193), an argument of RUN, so a claim holds for every value. Its type is a DESIGN CHOICE,
safe (log entry 9). -/
abbrev Elapsed := Rat

/-- One event of the output stream (44_output.md R160). -/
inductive OutputEvent where
  /-- PRINT_REG: a register's value (R163). -/
  | print (v : Word)
  /-- DEBUG_STATE: a snapshot (R165). -/
  | debug (snap : Snapshot)
  /-- An unknown opcode byte and its own address (40_control.md R92, R161). -/
  | unknownOpcodeDiag (op : Byte) (offset : Nat)
  /-- The driver caught a fault (60_exceptions.md R190). -/
  | crashDiag (info : FaultInfo)
  /-- The end of a RUN (60_exceptions.md R192). -/
  | summary (steps ops : Nat) (elapsed : Elapsed)
  deriving DecidableEq, Repr

/-- All the state the spec gives the machine (the table at the head of 10_state.md, R34, R35). -/
structure State where
  /-- MEM_SIZE; no command changes it (10_state.md R34). -/
  memSize : Nat
  /-- MEM, the one address space (10_state.md R34, 20_memory.md R40). -/
  mem : Memory
  /-- x[0..7], named r0 to r7 (10_state.md R20). -/
  regs : Vector Word 8
  /-- IP, the offset of the next byte to fetch (10_state.md R23). -/
  ip : Nat
  /-- The status flag `running` (10_state.md R26). -/
  running : Bool
  /-- `step_count` (10_state.md R28). -/
  stepCount : Nat
  /-- `op_count` (10_state.md R29). -/
  opCount : Nat
  /-- The output stream, oldest event first (44_output.md R160). -/
  out : List OutputEvent
  deriving DecidableEq, Repr

/-- Why a step stops with a fault. -/
inductive Fault where
  /-- A fetch of `n` bytes at `addr` reaches outside [0, MEM_SIZE): raised by `fetchU8` and `fetchU32`
  (60_exceptions.md R181). `left` is the state the fault leaves (R183), from which the host's next command goes on
  (R195, R198). Safe: the spec names this fault, and nothing of its effect is lost. -/
  | outOfRange (addr n : Nat) (left : State)
  deriving DecidableEq, Repr

/-- Why a step is refused. -/
inductive Refusal where
  /-- An instruction without a meaning in this model: raised by no arm of `exec`. Safe. -/
  | notModelled (mnemonic : String)
  deriving DecidableEq, Repr

/-- What a meaning and a step answer. -/
abbrev Result := Host.Outcome State Fault Refusal

/-- Power-on with a configuration: registers, IP, `running` and the counters at their reset values, MEM at MEM_INIT
(10_state.md R38, 70_reset_and_hazards.md R211). IP, `running` and the counters are the spec's decisions
D4, D6, D7: UNVERIFIED, unsafe (log entries 3, 4, 19). The output stream starts empty: DESIGN CHOICE, unsafe (log
entry 8). -/
def State.powerOn (c : Config) : State :=
  { memSize := c.memSize
    mem := c.memInit
    regs := Vector.replicate 8 0#32
    ip := 0
    running := false
    stepCount := 0
    opCount := 0
    out := [] }

/-- The machine right after power-on in the reference configuration (10_state.md R38). -/
def State.reset : State := State.powerOn Config.reference

end Sys2Proof.Machine
end

