-- ==== Sys2Proof/Machine/Ops.lean ====
section
/-!
DEFINITION. The named operations over memory, registers, IP and the output stream, and the two ways a step stops:
the raised fault and the unknown-opcode stop.
-/
namespace Sys2Proof.Machine

/-! ## Memory -/

/-- The byte at an address (10_state.md R34). -/
def Memory.read : Memory → Nat → Byte
  | [], _ => Config.unlistedByte
  | (b, w) :: m, a => if a = b then w else Memory.read m a

/-- A cell put before a memory, left out where it holds what an unlisted address reads as. -/
def Memory.put (a : Nat) (v : Byte) (m : Memory) : Memory :=
  if v = Config.unlistedByte then m else (a, v) :: m

/-- Write one byte, keeping the canonical form (20_memory.md R47, MemWrite of one byte). -/
def Memory.write : Memory → Nat → Byte → Memory
  | [], a, v => Memory.put a v []
  | (b, w) :: m, a, v =>
    if a < b then Memory.put a v ((b, w) :: m)
    else if a = b then Memory.put a v m
    else (b, w) :: Memory.write m a v

/-- Write bytes at rising addresses (the loop of LOAD, 20_memory.md R47). -/
def Memory.writeBytes : Memory → Nat → List Byte → Memory
  | m, _, [] => m
  | m, a, v :: vs => Memory.writeBytes (Memory.write m a v) (a + 1) vs

/-- MemRead(a, 4): big-endian (20_memory.md R42). -/
def Memory.readWord (m : Memory) (a : Nat) : Word :=
  bigEndian (m.read a) (m.read (a + 1)) (m.read (a + 2)) (m.read (a + 3))

/-! ## Registers, IP, counters, output -/

/-- `x[i]` (10_state.md R20). -/
def State.reg (s : State) (i : Fin 8) : Word := s.regs[i]

/-- `x[i] <- v` (10_state.md R21). -/
def State.setReg (s : State) (i : Fin 8) (v : Word) : State := { s with regs := s.regs.set i v }

/-- `IP <- a` (10_state.md R24). -/
def State.setIp (s : State) (a : Nat) : State := { s with ip := a }

/-- Count one fetched opcode byte (10_state.md R29, 40_control.md R80). -/
def State.countOp (s : State) : State := { s with opCount := s.opCount + 1 }

/-- `Emit(e)`: append an event; it always succeeds (44_output.md R160, R172). UNVERIFIED, unsafe
for a sink that can refuse (log entry 10). -/
def State.emit (s : State) (e : OutputEvent) : State := { s with out := s.out ++ [e] }

/-- The snapshot of the current state (44_output.md R165). -/
def State.snapshot (s : State) : Snapshot := { ip := s.ip, regs := s.regs }

/-- Store bytes from IP on, those that fall inside memory; nothing else changes. This is how the host places an
instruction for the next step. -/
def State.storeAtIp (s : State) (bs : List Byte) : State :=
  { s with mem := s.mem.writeBytes s.ip (bs.take (s.memSize - s.ip)) }

/-! ## The two stops of a step. There is no trap entry and no return from one (60_exceptions.md R199). -/

/-- `raise OutOfRange(addr, n)` in state `s`, the state before the failing fetch, which is what the fault leaves
(60_exceptions.md R181, R183). IP there is decision D9: UNVERIFIED, unsafe (log entry 5). -/
def raiseOutOfRange (addr n : Nat) (s : State) : Result := .fault (.outOfRange addr n s)

/-- The unknown-opcode stop at address `a`: the diagnostic, then `running <- false` (40_control.md R92). -/
def takeUnknownOpcode (op : Byte) (a : Nat) (s : State) : State :=
  { s.emit (.unknownOpcodeDiag op a) with running := false }

end Sys2Proof.Machine
end

