-- ==== Sys2Proof/Machine/Operands.lean ====
section
/-!
DEFINITION. The operand forms: register selectors and jump targets.
-/
namespace Sys2Proof.Machine

/-- `RegSel(b) = b mod 8`; bits 7..3 are ignored (10_state.md R22, 30_encoding.md R64). -/
def regSel (b : Byte) : Fin 8 := ⟨b.toNat % 8, Nat.mod_lt _ (by decide)⟩

/-- `x[RegSel(b)]`. -/
def State.readSel (s : State) (b : Byte) : Word := s.reg (regSel b)

/-- `x[RegSel(b)] <- v`. -/
def State.writeSel (s : State) (b : Byte) (v : Word) : State := s.setReg (regSel b) v

/-- `addr mod MEM_SIZE`, an absolute target (43_control_flow.md R138, R140). -/
def State.jumpTarget (s : State) (addr : Word) : Nat := addr.toNat % s.memSize

end Sys2Proof.Machine
end

