-- ==== Sys2Proof/Machine/Arithmetic.lean ====
section
/-!
DEFINITION. ADD_REG_REG and SUB_REG_REG (42_arithmetic.md R118 to R125).
-/
namespace Sys2Proof.Machine

/-- `a +32 b`, wrapping at 32 bits (42_arithmetic.md R119). -/
def add32 (a b : Word) : Word := a + b

/-- `a -32 b`, wrapping at 32 bits (42_arithmetic.md R119). -/
def sub32 (a b : Word) : Word := a - b

/-- ADD_REG_REG: both operands are read before the write (42_arithmetic.md R120, 40_control.md R82). -/
def execAddRegReg (dst src : Byte) (s : State) : Result :=
  .next (s.writeSel dst (add32 (s.readSel dst) (s.readSel src)))

/-- SUB_REG_REG: both operands are read before the write (42_arithmetic.md R125, 40_control.md R82). -/
def execSubRegReg (dst src : Byte) (s : State) : Result :=
  .next (s.writeSel dst (sub32 (s.readSel dst) (s.readSel src)))

end Sys2Proof.Machine
end

