-- ==== Sys2Proof/Machine/Flags.lean ====
section
/-!
DEFINITION. The status flag `running` and the one condition an instruction tests. Arithmetic writes no flag: there
are no condition codes (10_state.md R31).
-/
namespace Sys2Proof.Machine

/-- `running <- false` (10_state.md R26). -/
def State.stop (s : State) : State := { s with running := false }

/-- JZ's condition: exact equality with 0 (43_control_flow.md R145). -/
def isZero (v : Word) : Bool := v == 0#32

end Sys2Proof.Machine
end

