-- ==== Sys2Proof/Machine/Control.lean ====
section
/-!
DEFINITION. NOP and HALT (40_control.md R85, R88). A meaning runs after the fetch of rule R80: IP is already past
the instruction and `op_count` has counted it.
-/
namespace Sys2Proof.Machine

/-- NOP: no effect (40_control.md R85). -/
def execNop (s : State) : Result := .next s

/-- HALT: `running <- false`; IP stays past the HALT (40_control.md R88). -/
def execHalt (s : State) : Result := .next s.stop

end Sys2Proof.Machine
end

