-- ==== Sys2Proof/Machine/ControlFlow.lean ====
section
/-!
DEFINITION. JMP and JZ (43_control_flow.md R138 to R145).
-/
namespace Sys2Proof.Machine

/-- JMP: `IP <- addr mod MEM_SIZE` (43_control_flow.md R140). -/
def execJmp (addr : Word) (s : State) : Result := .next (s.setIp (s.jumpTarget addr))

/-- JZ: the jump if the register is 0, else IP stays past the instruction (43_control_flow.md R145). -/
def execJz (reg : Byte) (addr : Word) (s : State) : Result :=
  if isZero (s.readSel reg) then .next (s.setIp (s.jumpTarget addr)) else .next s

end Sys2Proof.Machine
end

