-- ==== Sys2Proof/Machine/DataMovement.lean ====
section
/-!
DEFINITION. LOAD_REG_IMM and MOV_REG_REG (41_data_movement.md R100, R105).
-/
namespace Sys2Proof.Machine

/-- LOAD_REG_IMM: `x[RegSel(reg)] <- imm`, used as is (41_data_movement.md R100). -/
def execLoadRegImm (reg : Byte) (imm : Word) (s : State) : Result := .next (s.writeSel reg imm)

/-- MOV_REG_REG: `x[RegSel(dst)] <- x[RegSel(src)]` (41_data_movement.md R105). -/
def execMovRegReg (dst src : Byte) (s : State) : Result := .next (s.writeSel dst (s.readSel src))

end Sys2Proof.Machine
end

