-- ==== Sys2Proof/Machine/Output.lean ====
section
/-!
DEFINITION. PRINT_REG and DEBUG_STATE (44_output.md R163, R165).
-/
namespace Sys2Proof.Machine

/-- PRINT_REG: `Emit(Print(x[RegSel(reg)]))` (44_output.md R163). -/
def execPrintReg (reg : Byte) (s : State) : Result := .next (s.emit (.print (s.readSel reg)))

/-- DEBUG_STATE: emit the snapshot; its IP is A + 1, for the opcode fetch has moved it (44_output.md R165). DEDUCED, as
the spec itself derives it from R80; unsafe (log entry 23). -/
def execDebugState (s : State) : Result := .next (s.emit (.debug s.snapshot))

end Sys2Proof.Machine
end

