-- ==== Sys2Proof/Machine/Dispatch.lean ====
section
/-!
DEFINITION. The dispatch of a fetched instruction to its meaning (40_control.md R80).
-/
namespace Sys2Proof.Machine

def exec (i : Instr) (s : State) : Host.Outcome State Fault Refusal :=
  match i with
  | .nop => Sys2Proof.Machine.execNop s
  | .halt => Sys2Proof.Machine.execHalt s
  | .loadRegImm reg imm => Sys2Proof.Machine.execLoadRegImm reg imm s
  | .movRegReg dst src => Sys2Proof.Machine.execMovRegReg dst src s
  | .addRegReg dst src => Sys2Proof.Machine.execAddRegReg dst src s
  | .subRegReg dst src => Sys2Proof.Machine.execSubRegReg dst src s
  | .jmp addr => Sys2Proof.Machine.execJmp addr s
  | .jz reg addr => Sys2Proof.Machine.execJz reg addr s
  | .printReg reg => Sys2Proof.Machine.execPrintReg reg s
  | .debugState => Sys2Proof.Machine.execDebugState s

end Sys2Proof.Machine
end

