-- ==== Sys2Proof/Machine/Fetch.lean ====
section
/-!
DEFINITION. Fetching: the two fetch primitives and the fetch of one instruction, opcode first, then its operands in
order (20_memory.md R44, R45; 30_encoding.md R62; 40_control.md R80).
-/
namespace Sys2Proof.Machine

/-- What a fetch answers: the value and the state after it, or the fault it raises and the state that leaves. -/
inductive Fetch (α : Type) where
  /-- The fetch succeeded. -/
  | got (v : α) (s : State)
  /-- The fetch of `n` bytes at `addr` failed in state `s` (60_exceptions.md R181). -/
  | outOfRange (addr n : Nat) (s : State)
  deriving DecidableEq, Repr

/-- Go on after a fetch; the first failure ends the step (60_exceptions.md R183, R185). -/
def Fetch.andThen {α β : Type} (f : Fetch α) (k : α → State → Fetch β) : Fetch β :=
  match f with
  | .got v s => k v s
  | .outOfRange addr n s => .outOfRange addr n s

/-- `FetchU8()`: the byte at IP, then IP + 1; a fault leaves IP (20_memory.md R44). The IP after a fault is decision
D9: UNVERIFIED, unsafe (log entry 5). -/
def fetchU8 (s : State) : Fetch Byte :=
  if s.memSize ≤ s.ip then .outOfRange s.ip 1 s
  else .got (s.mem.read s.ip) (s.setIp (s.ip + 1))

/-- `FetchU32()`: four bytes at IP, big-endian, then IP + 4; all four are checked before any is used
(20_memory.md R45). Decision D9: UNVERIFIED, unsafe (log entry 5). -/
def fetchU32 (s : State) : Fetch Word :=
  if s.memSize < s.ip + 4 then .outOfRange s.ip 4 s
  else .got (s.mem.readWord s.ip) (s.setIp (s.ip + 4))

/-- What the bytes at IP select: an instruction, or one of the 246 unknown opcodes (40_control.md R80, R81). -/
inductive Selected where
  | instr (i : Instr)
  | unknown (op : Byte)
  deriving DecidableEq, Repr

/-- Format R (30_encoding.md R62). -/
def fetchReg (mk : Byte → Instr) (s : State) : Fetch Selected :=
  (fetchU8 s).andThen fun reg s => .got (.instr (mk reg)) s

/-- Format RR: `dst`, then `src` (30_encoding.md R62). -/
def fetchRegReg (mk : Byte → Byte → Instr) (s : State) : Fetch Selected :=
  (fetchU8 s).andThen fun dst s => (fetchU8 s).andThen fun src s => .got (.instr (mk dst src)) s

/-- Format A (30_encoding.md R62). -/
def fetchWord (mk : Word → Instr) (s : State) : Fetch Selected :=
  (fetchU32 s).andThen fun w s => .got (.instr (mk w)) s

/-- Formats RI and RA: the selector, then the 4-byte operand (30_encoding.md R62). -/
def fetchRegWord (mk : Byte → Word → Instr) (s : State) : Fetch Selected :=
  (fetchU8 s).andThen fun reg s => (fetchU32 s).andThen fun w s => .got (.instr (mk reg w)) s

/-- The operand fetches of each operation (30_encoding.md R62). -/
def fetchOperands : Opcode → State → Fetch Selected
  | .nop, s => .got (.instr .nop) s
  | .halt, s => .got (.instr .halt) s
  | .loadRegImm, s => fetchRegWord .loadRegImm s
  | .movRegReg, s => fetchRegReg .movRegReg s
  | .addRegReg, s => fetchRegReg .addRegReg s
  | .subRegReg, s => fetchRegReg .subRegReg s
  | .jmp, s => fetchWord .jmp s
  | .jz, s => fetchRegWord .jz s
  | .printReg, s => fetchReg .printReg s
  | .debugState, s => .got (.instr .debugState) s

/-- Dispatch on a fetched opcode byte; an unknown one fetches nothing more (40_control.md R80, R92). -/
def fetchAfterOpcode (op : Byte) (s : State) : Fetch Selected :=
  match Opcode.ofByte op with
  | none => .got (.unknown op) s
  | some o => fetchOperands o s

/-- Fetch one instruction: the opcode byte, the count of it, then the operands (40_control.md R80, R82). -/
def fetchInstr (s : State) : Fetch Selected :=
  (fetchU8 s).andThen fun op s => fetchAfterOpcode op s.countOp

end Sys2Proof.Machine
end

