-- ==== Sys2Proof/Machine/Step.lean ====
section
/-!
DEFINITION. One step of the engine: `Step()` of 40_control.md R80.
-/
namespace Sys2Proof.Machine

/-- `Step()`: fetch, then dispatch (40_control.md R80). It reads neither `running` nor `step_count`: those belong to
the driver (Machine/Driver.lean). The host's STEP and one iteration of RUN are both built on it. A raise ends the step
with a fault (00_scope.md R8). That the fault carries the state it leaves is a DESIGN CHOICE, safe (log entry 17). -/
def step (s : State) : Host.Outcome State Fault Refusal :=
  match fetchInstr s with
  | .got (.instr i) t => exec i t
  | .got (.unknown op) t => .next (takeUnknownOpcode op s.ip t)
  | .outOfRange addr n t => raiseOutOfRange addr n t

/-- `s` with the instruction of `tableBytes nbits w` stored at IP, where the next step fetches. At State.reset IP is
0, so this is what LOAD at address 0 leaves: DEDUCED, safe (log entry 12). -/
def State.withFetchWord (s : State) (nbits w : Nat) : State := s.storeAtIp (tableBytes nbits w)

end Sys2Proof.Machine
end

