-- ==== Sys2Proof/Machine/Driver.lean ====
section
/-!
DEFINITION. The host interface: the execution driver (RUN) and the commands RESET, LOAD, STEP and DEBUG_QUERY
(60_exceptions.md sections 2 and 5). Each command runs to completion before the next is accepted (R201).
-/
namespace Sys2Proof.Machine

/-! ## STEP -/

/-- How a step ended (40_control.md R83). -/
inductive StepOutcome where
  | completed
  | halted
  | unknownOpcode (op : Byte) (a : Nat)
  | fault (info : FaultInfo)
  deriving DecidableEq, Repr

/-- The outcome of an instruction that has executed: `Halted` for HALT, `Continue` for the others (40_control.md R83). -/
def instrOutcome : Instr → StepOutcome
  | .nop => .completed
  | .halt => .halted
  | .loadRegImm _ _ => .completed
  | .movRegReg _ _ => .completed
  | .addRegReg _ _ => .completed
  | .subRegReg _ _ => .completed
  | .jmp _ => .completed
  | .jz _ _ => .completed
  | .printReg _ => .completed
  | .debugState => .completed

/-- The outcome of the step that state `s` takes (40_control.md R83). -/
def stepOutcome (s : State) : StepOutcome :=
  match fetchInstr s with
  | .got (.instr i) _ => instrOutcome i
  | .got (.unknown op) _ => .unknownOpcode op s.ip
  | .outOfRange addr n _ => .fault (.outOfRange addr n)

/-- STEP: one `Step()` whatever `running` is, and its outcome. A fault is returned to the host with the state it
leaves; no driver catches it (60_exceptions.md R198, 90_conflicts.md C7). A refused step (none exists) would be a
condition no rule covers, reported as a fault and never as a value (R191). UNVERIFIED, unsafe
(log entry 16); the refused case is a DESIGN CHOICE, safe (log entry 20). -/
def hostStep (s : State) : State × StepOutcome :=
  match step s with
  | .next t => (t, stepOutcome s)
  | .fault (.outOfRange addr n left) => (left, .fault (.outOfRange addr n))
  | .refused _ => (s, .fault .unexpected)

/-! ## RUN -/

/-- RUN, step 1: a fresh Execution State (60_exceptions.md R188, 90_conflicts.md C3). UNVERIFIED, unsafe: op_count
is decision D8 (log entry 15). -/
def runBegin (s : State) : State := { s with running := true, stepCount := 0, opCount := 0 }

/-- Fault containment: the driver reports the crash and clears `running`; the step is not counted
(60_exceptions.md R190, decision D10). UNVERIFIED, unsafe (log entry 6). -/
def containFault (info : FaultInfo) (s : State) : State := (s.emit (.crashDiag info)).stop

/-- Count a step that returned without a fault (10_state.md R28). -/
def State.countStep (s : State) : State := { s with stepCount := s.stepCount + 1 }

/-- One turn of the RUN loop (60_exceptions.md R189). -/
def runIteration (s : State) : State :=
  match hostStep s with
  | (t, .completed) => t.countStep
  | (t, .halted) => t.countStep
  | (t, .unknownOpcode _ _) => t.countStep
  | (t, .fault info) => containFault info t

/-- RUN's loop condition: `running and step_count < max_steps` (60_exceptions.md R189). -/
def runGoesOn (maxSteps : Nat) (s : State) : Bool := s.running && decide (s.stepCount < maxSteps)

/-- RUN, step 2: the loop, with a bound on its turns (60_exceptions.md R189). Every turn counts a step or ends the
loop, so `max_steps` turns are always enough. -/
def runLoop (maxSteps : Nat) : Nat → State → State
  | 0, s => s
  | k + 1, s => if runGoesOn maxSteps s then runLoop maxSteps k (runIteration s) else s

/-- The stop and fault codes (60_exceptions.md R184). -/
inductive StopCode where
  | none | halt | unknownOpcode | outOfRange | loadOutOfRange
  deriving DecidableEq, Repr

/-- The number of each code (60_exceptions.md R184). -/
def StopCode.number : StopCode → Nat
  | .none => 0
  | .halt => 1
  | .unknownOpcode => 2
  | .outOfRange => 3
  | .loadOutOfRange => 4

/-- The driver emitted this event on a crash. -/
def OutputEvent.isCrashDiag : OutputEvent → Bool
  | .crashDiag _ => true
  | .print _ => false
  | .debug _ => false
  | .unknownOpcodeDiag _ _ => false
  | .summary _ _ _ => false

/-- The engine emitted this event on an unknown opcode. -/
def OutputEvent.isUnknownOpcodeDiag : OutputEvent → Bool
  | .unknownOpcodeDiag _ _ => true
  | .print _ => false
  | .debug _ => false
  | .crashDiag _ => false
  | .summary _ _ _ => false

/-- The stop code of a run, from the events of this run and the final `running` (60_exceptions.md R194). -/
def stopCode (events : List OutputEvent) (running : Bool) : StopCode :=
  if events.any OutputEvent.isCrashDiag then .outOfRange
  else if events.any OutputEvent.isUnknownOpcodeDiag then .unknownOpcode
  else if running then .none
  else .halt

/-- What RUN returns to the host (60_exceptions.md R194). -/
structure RunResult where
  running : Bool
  stepCount : Nat
  opCount : Nat
  code : StopCode
  deriving DecidableEq, Repr

/-- The state at RUN's loop exit, before the summary (60_exceptions.md R189). -/
def runToExit (maxSteps : Nat) (s : State) : State := runLoop maxSteps maxSteps (runBegin s)

/-- RUN(max_steps) with the host's elapsed-time draw: begin, loop, summary, result (60_exceptions.md R188 to R194). -/
def hostRun (maxSteps : Nat) (elapsed : Elapsed) (s : State) : State × RunResult :=
  let t := runToExit maxSteps s
  (t.emit (.summary t.stepCount t.opCount elapsed),
   { running := t.running
     stepCount := t.stepCount
     opCount := t.opCount
     code := stopCode (t.out.drop s.out.length) t.running })

/-! ## RESET, LOAD, DEBUG_QUERY -/

/-- RESET: registers, IP, `running` and the counters at their reset values; memory and the output stream stay
(70_reset_and_hazards.md R210, decision D22). UNVERIFIED, unsafe (log entry 11). -/
def hostReset (s : State) : State :=
  { s with
    regs := Vector.replicate 8 0#32
    ip := 0
    running := false
    stepCount := 0
    opCount := 0 }

/-- LOAD's answer (60_exceptions.md R197). -/
inductive LoadResult where
  | ok
  | loadFault (address length : Nat)
  deriving DecidableEq, Repr

/-- The stop code of a LOAD that fails (60_exceptions.md R184, R197). -/
def LoadResult.code : LoadResult → Option StopCode
  | .ok => Option.none
  | .loadFault _ _ => some .loadOutOfRange

/-- LOAD(bytes, address): check first, then write every byte and set IP; a failing LOAD changes nothing
(20_memory.md R47, decision D11). UNVERIFIED, unsafe (log entry 13). -/
def hostLoad (bytes : List Byte) (address : Nat) (s : State) : State × LoadResult :=
  if s.memSize < address + bytes.length then (s, .loadFault address bytes.length)
  else ({ s with mem := s.mem.writeBytes address bytes, ip := address }, .ok)

/-- DEBUG_QUERY: the snapshot; nothing changes and nothing is emitted (44_output.md R170, decision D16).
UNVERIFIED, unsafe (log entry 18). -/
def hostDebugQuery (s : State) : State × Snapshot := (s, s.snapshot)

/-! ## One host command -/

/-- The host's commands (00_scope.md R5, 60_exceptions.md R201). -/
inductive Command where
  | reset
  | load (bytes : List Byte) (address : Nat)
  /-- LOAD without an address: `Config.defaultLoadAddr` (00_scope.md R6). -/
  | loadDefault (bytes : List Byte)
  | step
  | run (maxSteps : Nat) (elapsed : Elapsed)
  | debugQuery
  deriving DecidableEq, Repr

/-- What the host gets back (60_exceptions.md R201). -/
inductive Response where
  | nothing
  | loaded (r : LoadResult)
  | stepped (o : StepOutcome)
  | ran (r : RunResult)
  | snapshot (snap : Snapshot)
  deriving DecidableEq, Repr

/-- Carry out one command to completion (60_exceptions.md R201). -/
def hostCommand (c : Command) (s : State) : State × Response :=
  match c with
  | .reset => (hostReset s, .nothing)
  | .load bytes address => ((hostLoad bytes address s).1, .loaded (hostLoad bytes address s).2)
  | .loadDefault bytes =>
    ((hostLoad bytes Config.defaultLoadAddr s).1, .loaded (hostLoad bytes Config.defaultLoadAddr s).2)
  | .step => ((hostStep s).1, .stepped (hostStep s).2)
  | .run maxSteps elapsed => ((hostRun maxSteps elapsed s).1, .ran (hostRun maxSteps elapsed s).2)
  | .debugQuery => ((hostDebugQuery s).1, .snapshot (hostDebugQuery s).2)

/-- A session of the host: its commands one after another (60_exceptions.md R201), the boot sequence of
70_reset_and_hazards.md R213 among them. -/
def hostSession : List Command → State → State
  | [], s => s
  | c :: cs, s => hostSession cs (hostCommand c s).1

end Sys2Proof.Machine
end

