-- ==== Sys2Proof/Machine/Render.lean ====
section
/-!
DEFINITION. The text of each output event, one line each (44_output.md R162). A line is the list of its characters,
without a terminator, which the spec leaves open (log entry 25). What a line reports is the spec's, its wording is DIAG_FORMAT's:
the fields stand between words that are constants without a body (log entries 7 and 24). The spec asks that claims
about programs compare events, not text.
-/
namespace Sys2Proof.Machine

/-- Unsigned decimal, no sign, no leading zeros, no separators (44_output.md R162, decision D13). -/
def decimal (n : Nat) : List Char := Nat.toDigits 10 n

/-- A digit in the case DIAG_FORMAT gives. -/
def letterCase (upper : Bool) (c : Char) : Char := if upper then c.toUpper else c

/-- A hexadecimal digit in the case DIAG_FORMAT gives. -/
def hexDigit (upper : Bool) (n : Nat) : Char := letterCase upper (Nat.digitChar n)

/-- Leading zeros up to a width. -/
def zeroPad (width : Nat) (cs : List Char) : List Char := List.replicate (width - cs.length) '0' ++ cs

/-- A number in the form DIAG_FORMAT gives (44_output.md R162). -/
def numeral (st : NumeralStyle) (n : Nat) : List Char :=
  zeroPad st.width ((Nat.toDigits st.radix n).map (letterCase st.upper))

/-- A byte as two hexadecimal digits (44_output.md R161). -/
def hexByte (upper : Bool) (b : Byte) : List Char := [hexDigit upper (b.toNat / 16), hexDigit upper (b.toNat % 16)]

/-- An open text cut to one line: each event is one line (44_output.md R160, R162). The spec leaves the line terminator
open (91_not_in_source.md): that the newline character alone breaks a line is a DESIGN CHOICE (log entry 25). -/
def oneLine (cs : List Char) : List Char := cs.filter (fun c => c != '\n')

/-- A character that can stand in a decimal numeral of the summary line. -/
def numeralChar (c : Char) : Bool := c.isDigit || c == '.' || c == '-'

/-- The open words between two numbers: they do not continue the first and are not empty, so that the line says where
a number ends (DESIGN CHOICE, log entry 24). -/
def gap (cs : List Char) : List Char :=
  match (oneLine cs).dropWhile numeralChar with
  | [] => [' ']
  | c :: rest => c :: rest

/-- An elapsed time without its sign, as a number of units of the last digit shown: exact where the digits hold it,
else one of its two neighbours. -/
def elapsedUnits (elapsed : Rat) : Nat :=
  let scaled := elapsed.num.natAbs * 10 ^ Config.elapsedPlaces elapsed
  scaled / elapsed.den + (if scaled % elapsed.den ≠ 0 ∧ Config.elapsedRoundsUp elapsed = true then 1 else 0)

/-- An elapsed time in seconds: a sign if it is below 0, the whole seconds, and the places DIAG_FORMAT shows after a
point (44_output.md R162; the decimal form is a DESIGN CHOICE, log entry 24). -/
def secondsText (elapsed : Rat) : List Char :=
  let places := Config.elapsedPlaces elapsed
  let units := elapsedUnits elapsed
  (if elapsed.num < 0 then ['-'] else []) ++ decimal (units / 10 ^ places)
    ++ (if places = 0 then [] else '.' :: zeroPad places (decimal (units % 10 ^ places)))

/-- The three fields of a summary line in the order DIAG_FORMAT gives. -/
def summaryFields (order : SummaryOrder) (steps ops elapsed : List Char) : List Char × List Char × List Char :=
  match order with
  | .stepsOpsElapsed => (steps, ops, elapsed)
  | .stepsElapsedOps => (steps, elapsed, ops)
  | .opsStepsElapsed => (ops, steps, elapsed)
  | .opsElapsedSteps => (ops, elapsed, steps)
  | .elapsedStepsOps => (elapsed, steps, ops)
  | .elapsedOpsSteps => (elapsed, ops, steps)

/-- The summary line: steps executed, operation count and elapsed time in seconds, in open words (44_output.md R162,
60_exceptions.md R192). -/
def summaryLine (steps ops : Nat) (elapsed : Rat) : List Char :=
  let (first, second, third) :=
    summaryFields Config.summaryOrder (decimal steps) (decimal ops) (secondsText elapsed)
  oneLine Config.summaryHead ++ first ++ gap Config.summaryMiddle1 ++ second ++ gap Config.summaryMiddle2 ++ third
    ++ oneLine Config.summaryTail

/-- One field of the Debug line after IP: a space, the register's name, its value in decimal (44_output.md R162). -/
def debugField (regs : Vector Word 8) (i : Fin 8) : List Char :=
  [' ', 'r'] ++ decimal i.val ++ ['='] ++ decimal regs[i].toNat

/-- `IP=<value> r0=<value> … r7=<value>` (44_output.md R162, W9). -/
def debugLine (snap : Snapshot) : List Char :=
  ['I', 'P', '='] ++ decimal snap.ip ++ (List.finRange 8).flatMap (debugField snap.regs)

/-- The unknown-opcode line: the opcode as two hex digits and the offset, in open words (44_output.md R161, R162). -/
def unknownOpcodeLine (op : Byte) (offset : Nat) : List Char :=
  let hex := hexByte Config.unknownHexUpper op
  let off := numeral Config.unknownOffsetStyle offset
  let first := if Config.unknownOpFirst then hex else off
  let second := if Config.unknownOpFirst then off else hex
  oneLine Config.unknownHead ++ first ++ oneLine Config.unknownMiddle ++ second ++ oneLine Config.unknownTail

/-- The line of one event (44_output.md R162). -/
def render : OutputEvent → List Char
  | .print v => decimal v.toNat
  | .debug snap => debugLine snap
  | .unknownOpcodeDiag op offset => unknownOpcodeLine op offset
  | .crashDiag (.outOfRange addr n) => oneLine (Config.crashLine addr n)
  | .crashDiag .unexpected => oneLine Config.crashLineUnexpected
  | .summary steps ops elapsed => summaryLine steps ops elapsed

end Sys2Proof.Machine
end

