-- ==== Sys2Proof/WellFormed.lean ====
section
/-!
DEFINITION. What makes an instruction and a configuration legal.
-/
namespace Sys2Proof

/-- No operand field has a reserved value: every selector byte and every 32-bit immediate or address is legal
(30_encoding.md R64, R65, R67). The widths of the fields are their types, so every term is well formed. -/
def Instr.WellFormed : Instr → Bool
  | .nop => true
  | .halt => true
  | .loadRegImm _ _ => true
  | .movRegReg _ _ => true
  | .addRegReg _ _ => true
  | .subRegReg _ _ => true
  | .jmp _ => true
  | .jz _ _ => true
  | .printReg _ => true
  | .debugState => true

/-- A legal configuration: MEM_SIZE >= 1 (00_scope.md R6, decision D2), and MEM_INIT lies inside the memory
(70_reset_and_hazards.md R211), its cells in the canonical form in which the model lists memory. -/
abbrev Config.WellFormed (c : Config) : Prop :=
  1 ≤ c.memSize
  ∧ c.memInit.Pairwise (fun x y => x.1 < y.1)
  ∧ (∀ x ∈ c.memInit, x.2 ≠ Config.unlistedByte)
  ∧ (∀ x ∈ c.memInit, x.1 < c.memSize)

end Sys2Proof
end

