-- ==== Sys2Proof/Safety.lean ====
section
/-!
DEFINITION. The terms in which claims are stated: the state invariant, the bytes at an address, the state after a
fetch, the parts of the state a claim compares, and how a run ended.
-/
namespace Sys2Proof.Machine

/-- The invariants every command preserves (10_state.md R37 b and d, R34, 00_scope.md R6). R37 a holds by the type of
a register. The canonical form of memory is the model's own. -/
abbrev State.Inv (s : State) : Prop :=
  1 ≤ s.memSize ∧ s.ip ≤ s.memSize ∧ s.mem.wf ∧ ∀ x ∈ s.mem, x.1 < s.memSize

/-- The bytes of memory at addresses a, …, a + n - 1. -/
def State.window (s : State) (a n : Nat) : List Byte := (List.range n).map fun k => s.mem.read (a + k)

/-- The bytes `bs` stand at address `a`, inside memory. -/
abbrev State.HasBytes (s : State) (a : Nat) (bs : List Byte) : Prop :=
  a + bs.length ≤ s.memSize ∧ s.window a bs.length = bs

/-- The bytes at IP that an instruction may take: the longest instruction's, as far as memory goes. -/
def State.codeBytes (s : State) : List Byte := s.window s.ip (min maxLength (s.memSize - s.ip))

/-- The state after the fetch of an instruction of `n` bytes: IP past it, the opcode counted (40_control.md R80,
30_encoding.md R62). -/
def State.afterFetch (s : State) (n : Nat) : State := { s with ip := s.ip + n, opCount := s.opCount + 1 }

/-- The parts of the state that no step but a fetch, a jump, a stop or an emit may touch. -/
abbrev State.SameStore (s t : State) : Prop :=
  t.memSize = s.memSize ∧ (∀ a, t.mem.read a = s.mem.read a) ∧ t.stepCount = s.stepCount

/-- Two states that a program cannot tell apart: they differ at most in `running`, the counters and the output
stream, which no instruction reads (10_state.md R31, R32, R35). -/
abbrev State.SameProgramView (s t : State) : Prop :=
  t.memSize = s.memSize ∧ t.mem = s.mem ∧ t.regs = s.regs ∧ t.ip = s.ip

/-- A run has ended for good absent a host command (60_exceptions.md R207). -/
abbrev State.Final (s : State) : Prop := s.running = false

/-- Only HALT is a clean end of a run (60_exceptions.md R207). -/
abbrev RunResult.CleanEnd (r : RunResult) : Prop := r.code = .halt

/-- The number that a list of decimal digits writes. -/
def readDecimal (cs : List Char) : Nat := cs.foldl (fun acc c => acc * 10 + (c.toNat - '0'.toNat)) 0

/-- The value of a digit, in either case. -/
def digitValue (c : Char) : Nat :=
  if c.isDigit then c.toNat - '0'.toNat else if c.isUpper then c.toNat - 'A'.toNat + 10 else c.toNat - 'a'.toNat + 10

/-- The number that a list of digits writes in a radix. -/
def readNumeral (radix : Nat) (cs : List Char) : Nat := cs.foldl (fun acc c => acc * radix + digitValue c) 0

/-- A text of decimal digits, at least one. -/
abbrev IsDigits (cs : List Char) : Prop := cs ≠ [] ∧ ∀ c ∈ cs, c.isDigit = true

/-- A text shows a rational in decimal: a minus sign exactly where it is below 0, the digits `whole`, and then nothing
(`frac = []`) or a point and the digits `frac`. The number those digits write is the size of the rational to less than
one unit of the last digit. -/
abbrev ShowsRational (cs : List Char) (q : Rat) : Prop :=
  ∃ sign whole frac point : List Char,
    cs = sign ++ whole ++ point
      ∧ ((q.num < 0 ∧ sign = ['-']) ∨ (0 ≤ q.num ∧ sign = []))
      ∧ IsDigits whole
      ∧ ((frac = [] ∧ point = []) ∨ (IsDigits frac ∧ point = '.' :: frac))
      ∧ q.num.natAbs * 10 ^ frac.length < (readDecimal (whole ++ frac) + 1) * q.den
      ∧ readDecimal (whole ++ frac) * q.den < q.num.natAbs * 10 ^ frac.length + q.den

end Sys2Proof.Machine
end

