-- ==== Sys2Proof/Certificates/Slice0/Obligations.lean ====
section
/-!
DEFINITION. The statements for the provers. Throughout, `s.ip` before a step is the rules' `A`, the address of the
opcode byte; `s.afterFetch n` is `s` with IP moved by `n` and `op_count` raised by 1.
-/

open Sys2Proof Sys2Proof.Machine

/-! ## Encoding -/

/-- 30_encoding.md R61, R62, R65: decoding an encoded instruction, whatever follows it, gives it back, with every
operand at every value. -/
def Obligations.DecodeOfEncode : Prop :=
  ∀ (i : Instr) (rest : List Byte), decode (encode i ++ rest) = .ok i rest

/-- 30_encoding.md R60, R68: each byte string has one meaning: what decodes to an instruction is that instruction's
encoding followed by the rest. -/
def Obligations.EncodeOfDecode : Prop :=
  ∀ (bs : List Byte) (i : Instr) (rest : List Byte), decode bs = .ok i rest → bs = encode i ++ rest

/-- 30_encoding.md R63: the opcode byte selects the operation, and fixes the length, as the table has it; no other
byte selects one. -/
def Obligations.OpcodeMap : Prop :=
  (∀ (b : Byte) (o : Opcode), Opcode.ofByte b = some o ↔
    (b, o) ∈ [(0x00#8, .nop), (0x01#8, .halt), (0x10#8, .loadRegImm), (0x11#8, .movRegReg), (0x20#8, .addRegReg),
      (0x21#8, .subRegReg), (0x30#8, .jmp), (0x31#8, .jz), (0x40#8, .printReg), (0xF0#8, Opcode.debugState)])
  ∧ ∀ i : Instr, i.opcode = (match i with
      | .nop => .nop | .halt => .halt | .loadRegImm _ _ => .loadRegImm | .movRegReg _ _ => .movRegReg
      | .addRegReg _ _ => .addRegReg | .subRegReg _ _ => .subRegReg | .jmp _ => .jmp | .jz _ _ => .jz
      | .printReg _ => .printReg | .debugState => .debugState)
    ∧ (encode i).head? = some i.opcode.byte
    ∧ (encode i).length = (match i with
      | .nop => 1 | .halt => 1 | .loadRegImm _ _ => 6 | .movRegReg _ _ => 3
      | .addRegReg _ _ => 3 | .subRegReg _ _ => 3 | .jmp _ => 5 | .jz _ _ => 6
      | .printReg _ => 2 | .debugState => 1)

/-- 30_encoding.md R66, R67: exactly the bytes outside the ten ranges of R67 are opcodes; the 246 others are refused
by name and consume only themselves. -/
def Obligations.UnknownOpcodesRefused : Prop :=
  ((List.range 256).filter fun n => (Opcode.ofByte (BitVec.ofNat 8 n)).isNone).length = 246
  ∧ (∀ n : Nat, n < 256 → ((Opcode.ofByte (BitVec.ofNat 8 n) = none) ↔
      (0x02 ≤ n ∧ n ≤ 0x0F) ∨ (0x12 ≤ n ∧ n ≤ 0x1F) ∨ (0x22 ≤ n ∧ n ≤ 0x2F) ∨ (0x32 ≤ n ∧ n ≤ 0x3F)
        ∨ (0x41 ≤ n ∧ n ≤ 0xEF) ∨ (0xF1 ≤ n ∧ n ≤ 0xFF)))
  ∧ ∀ (op : Byte) (rest : List Byte), Opcode.ofByte op = none → decode (op :: rest) = .unknownOpcode op rest

/-- 30_encoding.md R69 and 95_test_vectors.md: a few words written out decode to what they stand for. -/
def Obligations.SpecWordsDecode : Prop :=
  decode [0x10#8, 0x01#8, 0x00#8, 0x00#8, 0x00#8, 0x0A#8] = .ok (.loadRegImm 1#8 10#32) []
  ∧ decode [0x11#8, 0x03#8, 0x00#8] = .ok (.movRegReg 3#8 0#8) []
  ∧ decode [0x20#8, 0x00#8, 0x02#8] = .ok (.addRegReg 0#8 2#8) []
  ∧ decode [0x21#8, 0x03#8, 0x01#8] = .ok (.subRegReg 3#8 1#8) []
  ∧ decode [0x30#8, 0x00#8, 0x00#8, 0x00#8, 0x0C#8] = .ok (.jmp 12#32) []
  ∧ decode [0x31#8, 0x03#8, 0x00#8, 0x00#8, 0x00#8, 0x28#8] = .ok (.jz 3#8 40#32) []
  ∧ decode [0x40#8, 0x00#8] = .ok (.printReg 0#8) []
  ∧ decode [0x00#8] = .ok .nop [] ∧ decode [0x01#8] = .ok .halt [] ∧ decode [0xF0#8] = .ok .debugState []

/-! ## Operands -/

/-- 30_encoding.md R64: a selector byte names the register of its value mod 8, and two encodings whose selectors
differ only in bits 7..3 execute identically. -/
def Obligations.SelectorsAlias : Prop :=
  (∀ b : Byte, (regSel b).val = b.toNat % 8)
  ∧ ∀ (r r' d d' : Byte), r.extractLsb' 0 3 = r'.extractLsb' 0 3 → d.extractLsb' 0 3 = d'.extractLsb' 0 3 →
    ∀ (w : Word) (s : State),
      exec (.loadRegImm r w) s = exec (.loadRegImm r' w) s
      ∧ exec (.movRegReg d r) s = exec (.movRegReg d' r') s
      ∧ exec (.addRegReg d r) s = exec (.addRegReg d' r') s
      ∧ exec (.subRegReg d r) s = exec (.subRegReg d' r') s
      ∧ exec (.jz r w) s = exec (.jz r' w) s
      ∧ exec (.printReg r) s = exec (.printReg r') s

/-- 20_memory.md R42, R43: a 4-byte read is the big-endian number of its bytes. (R42 marks its meaning of
'big-endian' as general knowledge.) -/
def Obligations.BigEndianRead : Prop :=
  ∀ (m : Memory) (a : Nat), (m.readWord a).toNat =
    (m.read a).toNat * 2 ^ 24 + (m.read (a + 1)).toNat * 2 ^ 16 + (m.read (a + 2)).toNat * 2 ^ 8
      + (m.read (a + 3)).toNat

/-! ## What each instruction does, once fetched: completion, result and frame -/

/-- 41_data_movement.md R100, R105, 42_arithmetic.md R120, R125: LOAD_REG_IMM, MOV_REG_REG, ADD_REG_REG and
SUB_REG_REG complete in every state and for all operands, and the register `mod 8` of the destination selector holds
the value of the rule, computed from the values before the write. -/
def Obligations.RegisterWritesComplete : Prop :=
  ∀ (d r : Byte) (imm : Word) (s : State),
    (∃ t, exec (.loadRegImm d imm) s = .next t ∧ t.reg (regSel d) = imm)
    ∧ (∃ t, exec (.movRegReg d r) s = .next t ∧ t.reg (regSel d) = s.reg (regSel r))
    ∧ (∃ t, exec (.addRegReg d r) s = .next t
        ∧ (t.reg (regSel d)).toNat = ((s.reg (regSel d)).toNat + (s.reg (regSel r)).toNat) % 2 ^ 32)
    ∧ (∃ t, exec (.subRegReg d r) s = .next t
        ∧ (t.reg (regSel d)).toNat = ((s.reg (regSel d)).toNat + 2 ^ 32 - (s.reg (regSel r)).toNat) % 2 ^ 32)

/-- The frame of LOAD_REG_IMM, MOV_REG_REG, ADD_REG_REG and SUB_REG_REG: every register but the destination, IP,
`running`, the counters, the output stream, MEM_SIZE and every byte of memory stay. -/
def Obligations.RegisterWritesFrame : Prop :=
  ∀ (i : Instr) (d : Byte),
    (∃ imm, i = .loadRegImm d imm) ∨ (∃ r, i = .movRegReg d r) ∨ (∃ r, i = .addRegReg d r)
      ∨ (∃ r, i = .subRegReg d r) →
    ∀ s t : State, exec i s = .next t →
      (∀ k, k ≠ regSel d → t.reg k = s.reg k) ∧ t.ip = s.ip ∧ t.running = s.running ∧ t.opCount = s.opCount
      ∧ t.out = s.out ∧ s.SameStore t

/-- 40_control.md R85, R88: NOP and HALT complete in every state; NOP has no effect, HALT clears `running` and
nothing else. -/
def Obligations.NopHaltComplete : Prop :=
  ∀ s : State, exec .nop s = .next s
    ∧ ∃ t, exec .halt s = .next t ∧ t.running = false
      ∧ t.regs = s.regs ∧ t.ip = s.ip ∧ t.opCount = s.opCount ∧ t.out = s.out ∧ s.SameStore t

/-- 43_control_flow.md R140, R145: JMP and JZ complete in every state: JMP sets IP to `addr mod MEM_SIZE`, JZ does so
exactly if the register's value is 0 and else leaves IP at the next instruction; nothing else changes. -/
def Obligations.JumpsComplete : Prop :=
  ∀ (r : Byte) (addr : Word) (s : State),
    (∃ t, exec (.jmp addr) s = .next t ∧ t.ip = addr.toNat % s.memSize
      ∧ t.regs = s.regs ∧ t.running = s.running ∧ t.opCount = s.opCount ∧ t.out = s.out ∧ s.SameStore t)
    ∧ (∃ t, exec (.jz r addr) s = .next t
      ∧ t.ip = (if (s.reg (regSel r)).toNat = 0 then addr.toNat % s.memSize else s.ip)
      ∧ t.regs = s.regs ∧ t.running = s.running ∧ t.opCount = s.opCount ∧ t.out = s.out ∧ s.SameStore t)

/-- 44_output.md R163, R165: PRINT_REG and DEBUG_STATE complete in every state, append exactly one event, the
register's value or the snapshot of IP and the eight registers in order, and change nothing else. -/
def Obligations.OutputsComplete : Prop :=
  ∀ (r : Byte) (s : State),
    (∃ t, exec (.printReg r) s = .next t ∧ t.out = s.out ++ [.print (s.reg (regSel r))]
      ∧ t.regs = s.regs ∧ t.ip = s.ip ∧ t.running = s.running ∧ t.opCount = s.opCount ∧ s.SameStore t)
    ∧ (∃ t, exec .debugState s = .next t
      ∧ t.out = s.out ++ [.debug { ip := s.ip, regs := #v[s.reg 0, s.reg 1, s.reg 2, s.reg 3, s.reg 4, s.reg 5,
          s.reg 6, s.reg 7] }]
      ∧ t.regs = s.regs ∧ t.ip = s.ip ∧ t.running = s.running ∧ t.opCount = s.opCount ∧ s.SameStore t)

/-! ## One whole step, instruction by instruction -/

/-- 40_control.md R80: when the bytes at IP decode to an instruction, the step is that instruction's meaning in the
state whose IP has passed the instruction and whose `op_count` has counted it. -/
def Obligations.StepRunsDecoded : Prop :=
  ∀ (s : State) (i : Instr) (rest : List Byte),
    decode s.codeBytes = .ok i rest → step s = exec i (s.afterFetch i.length)

/-- 40_control.md R85: with 0x00 at IP inside memory, a step moves IP by 1, counts the opcode, changes nothing else and
ends with outcome Continue. With IP outside memory the step is the opcode fetch's OutOfRange(A, 1), its only fault. -/
def Obligations.StepNop : Prop :=
  ∀ s : State,
    (s.ip < s.memSize → s.mem.read s.ip = 0x00#8 →
      hostStep s = (s.afterFetch 1, .completed) ∧ step s = .next (s.afterFetch 1))
    ∧ (s.memSize ≤ s.ip → ∃ t, step s = .fault (.outOfRange s.ip 1 t))

/-- 40_control.md R88: with 0x01 at IP inside memory, a step clears `running`, moves IP by 1 (where a later step
starts), counts the opcode, changes nothing else and ends with outcome Halted; under RUN the step is counted and the
loop ends. With IP outside memory the step is the opcode fetch's OutOfRange(A, 1), its only fault. -/
def Obligations.StepHalt : Prop :=
  ∀ s : State,
    (s.ip < s.memSize → s.mem.read s.ip = 0x01#8 → ∃ t, step s = .next t ∧ hostStep s = (t, .halted)
      ∧ t = { s.afterFetch 1 with running := false } ∧ t.ip = s.ip + 1
      ∧ runIteration s = { t with stepCount := s.stepCount + 1 }
      ∧ ∀ m k, runLoop m k (runIteration s) = runIteration s)
    ∧ (s.memSize ≤ s.ip → ∃ t, step s = .fault (.outOfRange s.ip 1 t))

/-- 40_control.md R92: the unknown-opcode stop. It reports the opcode and its own address, clears `running`, moves IP
past the one byte, counts the opcode, and does the same under RUN, with no crash diagnostic. Its only fault is that of
the opcode fetch. (That RUN counts the step is StepUnknownOpcodeCounted.) -/
def Obligations.StepUnknownOpcode : Prop :=
  ∀ (s : State) (op : Byte),
    (s.ip < s.memSize → s.mem.read s.ip = op → Opcode.ofByte op = none → ∃ t, step s = .next t ∧ hostStep s = (t, .unknownOpcode op s.ip)
      ∧ t = { s.afterFetch 1 with running := false, out := s.out ++ [.unknownOpcodeDiag op s.ip] }
      ∧ (runIteration s).out = s.out ++ [.unknownOpcodeDiag op s.ip] ∧ (runIteration s).running = false
      ∧ (runIteration s).ip = s.ip + 1 ∧ ∀ m k, runLoop m k (runIteration s) = runIteration s)
    ∧ (s.memSize ≤ s.ip → ∃ t, step s = .fault (.outOfRange s.ip 1 t))

/-- 60_exceptions.md R182, R189: under RUN an unknown-opcode step is counted (40_control.md R92 marks this as derived)
and is no crash: the turn of the loop emits its one diagnostic only. -/
def Obligations.StepUnknownOpcodeCounted : Prop :=
  ∀ s : State, s.ip < s.memSize → Opcode.ofByte (s.mem.read s.ip) = none →
    runIteration s = { s with ip := s.ip + 1, opCount := s.opCount + 1, stepCount := s.stepCount + 1, running := false,
                              out := s.out ++ [.unknownOpcodeDiag (s.mem.read s.ip) s.ip] }

/-- 41_data_movement.md R100: with 0x10 at IP, the register `mod 8` of the selector at A + 1 receives the big-endian
number of the bytes A + 2 to A + 5, IP = A + 6, the opcode is counted, nothing else changes, outcome Continue; a
selector outside memory is OutOfRange(A+1, 1), an immediate that does not fit OutOfRange(A+2, 4), with no register
written and IP left at the failing fetch. The clause on the IP a fault leaves rests on the spec's decision D9
(log entry 5). -/
def Obligations.StepLoadRegImm : Prop :=
  ∀ s : State, s.ip < s.memSize → s.mem.read s.ip = 0x10#8 →
    (s.memSize ≤ s.ip + 1 → step s = .fault (.outOfRange (s.ip + 1) 1 (s.afterFetch 1)))
    ∧ (s.ip + 1 < s.memSize → s.memSize < s.ip + 6 →
        step s = .fault (.outOfRange (s.ip + 2) 4 (s.afterFetch 2)))
    ∧ (s.ip + 6 ≤ s.memSize →
        hostStep s = ((s.afterFetch 6).setReg (regSel (s.mem.read (s.ip + 1))) (s.mem.readWord (s.ip + 2)), .completed)
        ∧ step s = .next ((s.afterFetch 6).setReg (regSel (s.mem.read (s.ip + 1))) (s.mem.readWord (s.ip + 2))))

/-- 41_data_movement.md R105: with 0x11 at IP, the register of the selector at A + 1 receives the value of the register
of the selector at A + 2 (the rule's pseudocode line), IP = A + 3, the opcode is counted, nothing else changes, outcome
Continue; a selector outside memory is OutOfRange(A+1, 1) or OutOfRange(A+2, 1), with no register written. -/
def Obligations.StepMovRegReg : Prop :=
  ∀ s : State, s.ip < s.memSize → s.mem.read s.ip = 0x11#8 →
    (s.memSize ≤ s.ip + 1 → ∃ t, step s = .fault (.outOfRange (s.ip + 1) 1 t) ∧ t.regs = s.regs)
    ∧ (s.memSize = s.ip + 2 → ∃ t, step s = .fault (.outOfRange (s.ip + 2) 1 t) ∧ t.regs = s.regs)
    ∧ (s.ip + 3 ≤ s.memSize → ∃ t, step s = .next t ∧ hostStep s = (t, .completed)
        ∧ t = (s.afterFetch 3).setReg (regSel (s.mem.read (s.ip + 1))) (s.reg (regSel (s.mem.read (s.ip + 2)))))

/-- 42_arithmetic.md R120: with 0x20 at IP, the register of the selector at A + 1 receives the sum modulo 2^32 of its
value and that of the register of the selector at A + 2, both read before the write, IP = A + 3, the opcode is counted,
nothing else changes, outcome Continue; a selector outside memory is OutOfRange(A+1, 1) or OutOfRange(A+2, 1), with no
register written. -/
def Obligations.StepAddRegReg : Prop :=
  ∀ s : State, s.ip < s.memSize → s.mem.read s.ip = 0x20#8 →
    (s.memSize ≤ s.ip + 1 → ∃ t, step s = .fault (.outOfRange (s.ip + 1) 1 t) ∧ t.regs = s.regs)
    ∧ (s.memSize = s.ip + 2 → ∃ t, step s = .fault (.outOfRange (s.ip + 2) 1 t) ∧ t.regs = s.regs)
    ∧ (s.ip + 3 ≤ s.memSize → ∃ t v, step s = .next t ∧ hostStep s = (t, .completed)
        ∧ t = (s.afterFetch 3).setReg (regSel (s.mem.read (s.ip + 1))) v
        ∧ v.toNat = ((s.reg (regSel (s.mem.read (s.ip + 1)))).toNat
            + (s.reg (regSel (s.mem.read (s.ip + 2)))).toNat) % 2 ^ 32)

/-- 42_arithmetic.md R125: with 0x21 at IP, the register of the selector at A + 1 receives the difference modulo 2^32 of
its value minus that of the register of the selector at A + 2, both read before the write, IP = A + 3, the opcode is
counted, nothing else changes, outcome Continue; a selector outside memory is OutOfRange(A+1, 1) or OutOfRange(A+2, 1),
with no register written. -/
def Obligations.StepSubRegReg : Prop :=
  ∀ s : State, s.ip < s.memSize → s.mem.read s.ip = 0x21#8 →
    (s.memSize ≤ s.ip + 1 → ∃ t, step s = .fault (.outOfRange (s.ip + 1) 1 t) ∧ t.regs = s.regs)
    ∧ (s.memSize = s.ip + 2 → ∃ t, step s = .fault (.outOfRange (s.ip + 2) 1 t) ∧ t.regs = s.regs)
    ∧ (s.ip + 3 ≤ s.memSize → ∃ t v, step s = .next t ∧ hostStep s = (t, .completed)
        ∧ t = (s.afterFetch 3).setReg (regSel (s.mem.read (s.ip + 1))) v
        ∧ (v.toNat : Int) = ((s.reg (regSel (s.mem.read (s.ip + 1)))).toNat
            - (s.reg (regSel (s.mem.read (s.ip + 2)))).toNat : Int) % 2 ^ 32)

/-- 43_control_flow.md R140: with 0x30 at IP, IP becomes the big-endian number of the bytes A + 1 to A + 4 modulo
MEM_SIZE, the opcode is counted, nothing else changes, outcome Continue; an operand that does not fit is
OutOfRange(A+1, 4), with IP left at A + 1. The clause on the IP a fault leaves rests on the spec's decision D9 (log entry 5). -/
def Obligations.StepJmp : Prop :=
  ∀ s : State, s.ip < s.memSize → s.mem.read s.ip = 0x30#8 →
    (s.memSize < s.ip + 5 → step s = .fault (.outOfRange (s.ip + 1) 4 (s.afterFetch 1)))
    ∧ (s.ip + 5 ≤ s.memSize → ∃ t, step s = .next t ∧ hostStep s = (t, .completed)
        ∧ t = { s.afterFetch 5 with ip := (s.mem.readWord (s.ip + 1)).toNat % s.memSize })

/-- 43_control_flow.md R145: with 0x31 at IP, if the register of the selector at A + 1 is exactly 0, IP becomes the
big-endian number of the bytes A + 2 to A + 5 modulo MEM_SIZE, else A + 6; the opcode is counted, nothing else changes,
outcome Continue; whatever the register holds, a selector outside memory is OutOfRange(A+1, 1) and an operand that does
not fit OutOfRange(A+2, 4), with IP left at the failing fetch. The clause on the IP a
fault leaves rests on the spec's decision D9 (log entry 5). -/
def Obligations.StepJz : Prop :=
  ∀ s : State, s.ip < s.memSize → s.mem.read s.ip = 0x31#8 →
    (s.memSize ≤ s.ip + 1 → step s = .fault (.outOfRange (s.ip + 1) 1 (s.afterFetch 1)))
    ∧ (s.ip + 1 < s.memSize → s.memSize < s.ip + 6 →
        step s = .fault (.outOfRange (s.ip + 2) 4 (s.afterFetch 2)))
    ∧ (s.ip + 6 ≤ s.memSize → ∃ t, step s = .next t ∧ hostStep s = (t, .completed)
        ∧ ((s.reg (regSel (s.mem.read (s.ip + 1)))).toNat = 0 →
            t = { s.afterFetch 6 with ip := (s.mem.readWord (s.ip + 2)).toNat % s.memSize })
        ∧ ((s.reg (regSel (s.mem.read (s.ip + 1)))).toNat ≠ 0 → t = s.afterFetch 6))

/-- 44_output.md R163: with 0x40 at IP, the event Print of the register of the selector at A + 1 is appended, IP = A + 2,
the opcode is counted, nothing else changes, outcome Continue; a selector outside memory is OutOfRange(A+1, 1), with no
event. The texts of 0 and 0xFFFFFFFF are as the rule says. -/
def Obligations.StepPrintReg : Prop :=
  ∀ s : State, s.ip < s.memSize → s.mem.read s.ip = 0x40#8 →
    (s.memSize ≤ s.ip + 1 → ∃ t, step s = .fault (.outOfRange (s.ip + 1) 1 t) ∧ t.out = s.out)
    ∧ (s.ip + 2 ≤ s.memSize → ∃ t, step s = .next t ∧ hostStep s = (t, .completed)
        ∧ t = { s.afterFetch 2 with out := s.out ++ [.print (s.reg (regSel (s.mem.read (s.ip + 1))))] })
    ∧ render (.print 0#32) = ['0'] ∧ render (.print 0xFFFFFFFF#32) = "4294967295".toList

/-- 44_output.md R165: with 0xF0 at IP inside memory, the snapshot of IP = A + 1 and the registers is appended, IP is
A + 1, the opcode is counted, nothing else changes, outcome Continue. With IP outside memory the step is the opcode
fetch's OutOfRange(A, 1), its only fault. (That the snapshot's IP is A + 1 the spec derives from R80: log entry 23.) -/
def Obligations.StepDebugState : Prop :=
  ∀ s : State,
    (s.ip < s.memSize → s.mem.read s.ip = 0xF0#8 → ∃ t, step s = .next t ∧ hostStep s = (t, .completed)
      ∧ t = { s.afterFetch 1 with out := s.out ++ [.debug { ip := s.ip + 1, regs := s.regs }] })
    ∧ (s.memSize ≤ s.ip → ∃ t, step s = .fault (.outOfRange s.ip 1 t))

/-! ## Faults -/

/-- 60_exceptions.md R181, R183: the only stop of a step is OutOfRange, and it leaves the state before the failing
fetch: IP at the reported address (decision D9, log entry 5), the opcode counted exactly if it was fetched, nothing
else changed. -/
def Obligations.FaultLeavesFetchState : Prop :=
  ∀ (s t : State) (addr n : Nat), step s = .fault (.outOfRange addr n t) →
    t.memSize < addr + n ∧ (n = 1 ∨ n = 4) ∧ s.ip ≤ addr ∧ addr ≤ s.ip + 2
    ∧ t = { s with ip := addr, opCount := if addr = s.ip then s.opCount else s.opCount + 1 }

/-- 30_encoding.md R62, 60_exceptions.md R181: a step faults exactly when its opcode byte is outside memory or the
instruction that the opcode selects does not fit. -/
def Obligations.StepFaultsExactly : Prop :=
  ∀ s : State, (∃ f, step s = .fault f) ↔
    (s.memSize ≤ s.ip ∨ ∃ o, Opcode.ofByte (s.mem.read s.ip) = some o ∧ s.memSize < s.ip + o.length)

/-- 40_control.md R83: a step can only fault by an out-of-range access, never by a register index: every step is a
next state or that fault, and no instruction, once fetched, stops. -/
def Obligations.OnlyFetchFaults : Prop :=
  (∀ s : State, (∃ t, step s = .next t) ∨ ∃ addr n t, step s = .fault (.outOfRange addr n t))
  ∧ ∀ (i : Instr) (s : State), ∃ t, exec i s = .next t

/-- 10_state.md R25: sequential advance does not wrap. A successful fetch of an instruction leaves IP at exactly
s.ip + its length, MEM_SIZE included; a step that is neither JMP nor a taken JZ ends there, and an unknown opcode at
s.ip + 1. Running off the end of memory, at the opcode or inside an instruction, is a fault. Jump targets are taken
modulo MEM_SIZE and always land in range. -/
def Obligations.SequentialFaultsJumpsWrap : Prop :=
  ∀ s : State, 1 ≤ s.memSize →
    (∀ i u, fetchInstr s = .got (.instr i) u → u.ip = s.ip + i.length)
    ∧ (∀ o, s.ip < s.memSize → Opcode.ofByte (s.mem.read s.ip) = some o → s.ip + o.length ≤ s.memSize → o ≠ .jmp →
        (o = .jz → s.reg (regSel (s.mem.read (s.ip + 1))) ≠ 0#32) →
        ∃ t, step s = .next t ∧ t.ip = s.ip + o.length)
    ∧ (s.ip < s.memSize → Opcode.ofByte (s.mem.read s.ip) = none → ∃ t, step s = .next t ∧ t.ip = s.ip + 1)
    ∧ (∀ o, s.ip < s.memSize → Opcode.ofByte (s.mem.read s.ip) = some o → s.memSize < s.ip + o.length →
        ∃ addr n t, step s = .fault (.outOfRange addr n t))
    ∧ (s.ip = s.memSize → ∃ t, step s = .fault (.outOfRange s.memSize 1 t))
    ∧ (∀ addr t, exec (.jmp addr) s = .next t → t.ip = addr.toNat % s.memSize ∧ t.ip < s.memSize)
    ∧ (∀ r addr t, s.reg (regSel r) = 0#32 → exec (.jz r addr) s = .next t →
        t.ip = addr.toNat % s.memSize ∧ t.ip < s.memSize)

/-! ## The whole machine -/

/-- 10_state.md R37, R34: every step that gives a next state keeps the invariant. -/
def Obligations.StepKeepsInvariant : Prop :=
  ∀ s t : State, s.Inv → step s = .next t → t.Inv ∧ t.memSize = s.memSize

/-- 10_state.md R37, 60_exceptions.md R183: the state a fault leaves meets the invariant. -/
def Obligations.FaultKeepsInvariant : Prop :=
  ∀ (s t : State) (addr n : Nat), s.Inv → step s = .fault (.outOfRange addr n t) → t.Inv ∧ t.memSize = s.memSize

/-- 10_state.md R37: the invariants that every command preserves: IP in [0, MEM_SIZE], the memory's size and form, and
an output stream that only grows. -/
def Obligations.CommandsKeepInvariant : Prop :=
  ∀ (c : Command) (s : State), s.Inv →
    (hostCommand c s).1.Inv ∧ (hostCommand c s).1.memSize = s.memSize ∧ ∃ es, (hostCommand c s).1.out = s.out ++ es

/-- 10_state.md R38, 70_reset_and_hazards.md R211: power-on with a legal configuration meets the invariant, the
reference configuration among them, and so does every state a host session reaches from it. -/
def Obligations.SessionsMeetInvariant : Prop :=
  Config.reference.WellFormed
  ∧ ∀ (c : Config) (cs : List Command), c.WellFormed → (hostSession cs (State.powerOn c)).Inv

/-- 10_state.md R37: the reset state meets the invariant. -/
def Obligations.ResetMeetsInvariant : Prop := State.reset.Inv

/-- 10_state.md R23, R37 with 00_scope.md R6: under the invariant, IP fits in IP_WIDTH bits (decision D3). -/
def Obligations.IpFitsIpWidth : Prop :=
  ∀ s : State, s.Inv → s.ip < 2 ^ Config.ipWidth s.memSize

/-- 20_memory.md R40, R54: no step, and no command but LOAD, writes memory. -/
def Obligations.OnlyLoadWritesMemory : Prop :=
  (∀ s t : State, step s = .next t → ∀ a, t.mem.read a = s.mem.read a)
  ∧ ∀ (c : Command) (s : State), (∀ bs a, c ≠ .load bs a) → (∀ bs, c ≠ .loadDefault bs) →
      ∀ a, (hostCommand c s).1.mem.read a = s.mem.read a

/-- 40_control.md R80, 10_state.md R28, R29: a step that gives a next state counts exactly one opcode, whatever the
opcode, and leaves `step_count` to the driver. -/
def Obligations.StepCountsOneOpcode : Prop :=
  ∀ s t : State, step s = .next t → t.opCount = s.opCount + 1 ∧ t.stepCount = s.stepCount

/-- 10_state.md R26: a step never sets `running`, and it clears it only by HALT or an unknown opcode. -/
def Obligations.RunningClearedOnlyByStops : Prop :=
  ∀ s t : State, step s = .next t → t.running ≠ s.running →
    t.running = false ∧ (s.mem.read s.ip = 0x01#8 ∨ Opcode.ofByte (s.mem.read s.ip) = none)

/-- 40_control.md R82: a step writes at most one of: one register, IP by a jump, `running`, one output event (the
unknown-opcode stop, R92, is the one that both emits and stops). -/
def Obligations.StepWritesAtMostOne : Prop :=
  ∀ s t : State, step s = .next t → ∃ u n, 1 ≤ n ∧ n ≤ 6 ∧ u = s.afterFetch n ∧
    (t = u ∨ (∃ k v, t = u.setReg k v) ∨ (∃ a, a < s.memSize ∧ t = u.setIp a) ∨ t = { u with running := false }
      ∨ (∃ e, t = u.emit e) ∨ ∃ op, t = takeUnknownOpcode op s.ip u)

/-- 10_state.md R31, R32, R35: no instruction reads `running`, the counters or the output stream: states alike but
for these step alike, emit the same events, and fault alike. -/
def Obligations.StepIgnoresHostState : Prop :=
  ∀ s s' : State, s.SameProgramView s' →
    (∀ t, step s = .next t → ∃ t' es, step s' = .next t' ∧ t.SameProgramView t'
      ∧ t.out = s.out ++ es ∧ t'.out = s'.out ++ es)
    ∧ (∀ addr n t, step s = .fault (.outOfRange addr n t) →
        ∃ t', step s' = .fault (.outOfRange addr n t') ∧ t.SameProgramView t')
    ∧ (hostStep s).2 = (hostStep s').2

/-! ## The host interface -/

/-- 70_reset_and_hazards.md R210, R211, 10_state.md R38: the reset values. The registers' 0 is the source's; IP,
`running`, the counters and MEM_INIT are the spec's decisions D4 to D7 and D22; the empty output stream at power-on
is the model's choice (log entry 8). -/
def Obligations.ResetValues : Prop :=
  (∀ c : Config, (∀ k, (State.powerOn c).reg k = 0#32) ∧ (State.powerOn c).ip = 0
    ∧ (State.powerOn c).running = false ∧ (State.powerOn c).stepCount = 0 ∧ (State.powerOn c).opCount = 0
    ∧ (State.powerOn c).mem = c.memInit ∧ (State.powerOn c).memSize = c.memSize ∧ (State.powerOn c).out = [])
  ∧ State.reset.memSize = 65536 ∧ (∀ a, State.reset.mem.read a = 0x00#8)
  ∧ ∀ s : State, ∃ t, hostCommand .reset s = (t, .nothing) ∧ (∀ k, t.reg k = 0#32) ∧ t.ip = 0 ∧ t.running = false
    ∧ t.stepCount = 0 ∧ t.opCount = 0 ∧ t.mem = s.mem ∧ t.memSize = s.memSize ∧ t.out = s.out

/-- 20_memory.md R47, 00_scope.md R6: a LOAD that fits copies its bytes to the address, leaves every other byte, sets IP
to the address and changes nothing else; the LOAD without an address does so at address 0. -/
def Obligations.LoadCopiesBytes : Prop :=
  ∀ (c : Command) (bytes : List Byte) (address : Nat) (s : State),
    c = .load bytes address ∨ (c = .loadDefault bytes ∧ address = 0) →
    s.mem.wf → address + bytes.length ≤ s.memSize →
    ∃ t, hostCommand c s = (t, .loaded .ok) ∧ t.ip = address
      ∧ (∀ (k : Nat) (h : k < bytes.length), t.mem.read (address + k) = bytes[k])
      ∧ (∀ a, a < address ∨ address + bytes.length ≤ a → t.mem.read a = s.mem.read a)
      ∧ t.memSize = s.memSize ∧ t.regs = s.regs ∧ t.running = s.running ∧ t.stepCount = s.stepCount
      ∧ t.opCount = s.opCount ∧ t.out = s.out

/-- 20_memory.md R47, 60_exceptions.md R197, 00_scope.md R6: a LOAD that does not fit, with an address or at the default
address 0, changes nothing and reports the address and the length with stop code 4 (decision D11, log entry 13). -/
def Obligations.LoadFaultChangesNothing : Prop :=
  ∀ (c : Command) (bytes : List Byte) (address : Nat) (s : State),
    c = .load bytes address ∨ (c = .loadDefault bytes ∧ address = 0) →
    s.memSize < address + bytes.length →
    hostCommand c s = (s, .loaded (.loadFault address bytes.length))
    ∧ (LoadResult.loadFault address bytes.length).code = some .loadOutOfRange ∧ StopCode.loadOutOfRange.number = 4

/-- 60_exceptions.md R198: STEP runs one step whatever `running` is, leaves `step_count`, and returns a fault to the
host with the state the fault leaves, `running` and the output stream untouched (decision D12). -/
def Obligations.StepCommandReturnsFault : Prop :=
  ∀ s : State,
    (∀ t, step s = .next t → (hostStep s).1 = t ∧ ∀ i, (hostStep s).2 ≠ .fault i)
    ∧ (∀ addr n t, step s = .fault (.outOfRange addr n t) →
        hostStep s = (t, .fault (.outOfRange addr n)) ∧ t.running = s.running ∧ t.out = s.out)
    ∧ (hostStep s).1.stepCount = s.stepCount
    ∧ ∀ b, (hostStep { s with running := b }).2 = (hostStep s).2

/-- 60_exceptions.md R190: the driver contains a fault: one crash diagnostic after the events of the run so far,
`running` cleared, the step not counted (decision D10, log entry 6), and the loop ends. -/
def Obligations.RunContainsFault : Prop :=
  ∀ (s t : State) (addr n : Nat), step s = .fault (.outOfRange addr n t) →
    runIteration s = { t with running := false, out := s.out ++ [.crashDiag (.outOfRange addr n)] }
    ∧ (runIteration s).stepCount = s.stepCount ∧ ∀ m k, runLoop m k (runIteration s) = runIteration s

/-- 60_exceptions.md R189: RUN's loop is the loop of the rule: it unfolds as the `while` does, and its bound on turns
never cuts it short. -/
def Obligations.RunLoopIsWhile : Prop :=
  ∀ (m : Nat) (s : State),
    (runGoesOn m s = false → runLoop m (m - s.stepCount) s = s)
    ∧ (runGoesOn m s = true → runLoop m (m - s.stepCount) s
        = runLoop m (m - (runIteration s).stepCount) (runIteration s))
    ∧ runGoesOn m (runLoop m (m - s.stepCount) s) = false

/-- 60_exceptions.md R188, R192: a RUN starts from a fresh Execution State, so its result does not depend on the
`running` and counters it finds; it ends with the Summary of its own counts as the last event. -/
def Obligations.RunFreshAndSummarised : Prop :=
  ∀ (m : Nat) (e : Elapsed) (s : State) (b : Bool) (c o : Nat),
    hostRun m e { s with running := b, stepCount := c, opCount := o } = hostRun m e s
    ∧ ∃ es, (hostRun m e s).1.out
        = s.out ++ es ++ [.summary (hostRun m e s).2.stepCount (hostRun m e s).2.opCount e]

/-- 60_exceptions.md R189, 10_state.md R27: a RUN takes at most `max_steps` steps, and `running` is true at its end only
if exactly `max_steps` steps ran, each one opcode. -/
def Obligations.RunWithinBudget : Prop :=
  ∀ (m : Nat) (e : Elapsed) (s : State),
    (hostRun m e s).2.stepCount ≤ m
    ∧ ((hostRun m e s).2.running = true → (hostRun m e s).2.stepCount = m ∧ (hostRun m e s).2.opCount = m)
    ∧ ((hostRun m e s).2.running = (hostRun m e s).1.running)

/-- 60_exceptions.md R189: RUN(0) executes no step: `running` true, both counts 0, the Summary the only event, stop
code 0 (V60). -/
def Obligations.RunZero : Prop :=
  ∀ (e : Elapsed) (s : State), hostCommand (.run 0 e) s =
    ({ s with running := true, stepCount := 0, opCount := 0, out := s.out ++ [.summary 0 0 e] },
      .ran { running := true, stepCount := 0, opCount := 0, code := .none })

/-- 10_state.md R27, 60_exceptions.md R194, R207: what each stop code of a RUN says. 0: `running` is true. 3: the last
event before the Summary is a crash diagnostic of an out-of-range fetch, IP at its address. 2: it is an
unknown-opcode diagnostic, IP just past that byte. 1, the clean end: `running` is false and the byte before IP is a
HALT. There is no other code. (The codes are the spec's decisions D19 and D20, IP after a crash D9.) -/
def Obligations.RunStopCodes : Prop :=
  ∀ (m : Nat) (e : Elapsed) (s t : State) (r : RunResult), hostRun m e s = (t, r) →
    (r.code = .none ↔ t.running = true)
    ∧ (r.code = .outOfRange ↔ ∃ es n, t.out = s.out ++ es
        ++ [.crashDiag (.outOfRange t.ip n), .summary r.stepCount r.opCount e])
    ∧ (r.code = .unknownOpcode ↔ ∃ es op a, t.ip = a + 1 ∧ t.mem.read a = op ∧ Opcode.ofByte op = none
        ∧ t.out = s.out ++ es ++ [.unknownOpcodeDiag op a, .summary r.stepCount r.opCount e])
    ∧ (r.CleanEnd → t.Final ∧ ∃ a, t.ip = a + 1 ∧ t.mem.read a = 0x01#8)
    ∧ r.code ≠ .loadOutOfRange

/-- 60_exceptions.md R193, 10_state.md R30: the elapsed-time draw appears in the last event only (decision D14). -/
def Obligations.ElapsedOnlyInSummary : Prop :=
  ∀ (m : Nat) (e e' : Elapsed) (s : State),
    (hostRun m e s).2 = (hostRun m e' s).2
    ∧ (hostRun m e s).1 = { (hostRun m e' s).1 with out := (hostRun m e' s).1.out.dropLast
        ++ [.summary (hostRun m e' s).2.stepCount (hostRun m e' s).2.opCount e] }

/-- 60_exceptions.md R189, R192, R194, R195, 10_state.md R36: a run stopped by its budget continues where it stopped.
RUN(m) that ends with `running` true, then RUN(n), leave the registers, IP, memory, `running` and the stop code that
RUN(m + n) leaves; the counts add up, and RUN(m + n) emits RUN(m)'s events without its Summary, then RUN(n)'s, then its
own Summary. (That the second run counts from 0 is decision D8, log entry 15; the stop code is decision D20.) -/
def Obligations.RunResumesAfterBudget : Prop :=
  ∀ (m n : Nat) (e e' : Elapsed) (s t t₁ t₂ : State) (r r₁ r₂ : RunResult),
    hostRun m e s = (t, r) → r.running = true → hostRun n e' t = (t₁, r₁) → hostRun (m + n) e' s = (t₂, r₂) →
    t₂.SameProgramView t₁ ∧ r₂.running = r₁.running ∧ r₂.code = r₁.code
    ∧ r₂.stepCount = m + r₁.stepCount ∧ r₂.opCount = m + r₁.opCount
    ∧ ∃ es fs, t.out = s.out ++ es ++ [.summary r.stepCount r.opCount e]
      ∧ t₁.out = t.out ++ fs ++ [.summary r₁.stepCount r₁.opCount e']
      ∧ t₂.out = s.out ++ es ++ fs ++ [.summary r₂.stepCount r₂.opCount e']

/-- 60_exceptions.md R195, 90_conflicts.md C5: after a HALT at A a later step starts at A + 1, and after an
opcode-fetch fault the next step faults again at once. -/
def Obligations.ResumeAfterStop : Prop :=
  ∀ s : State,
    ((hostStep s).2 = .halted → (hostStep s).1.ip = s.ip + 1)
    ∧ (∀ op a, (hostStep s).2 = .unknownOpcode op a → a = s.ip ∧ (hostStep s).1.ip = s.ip + 1)
    ∧ (∀ addr n, (hostStep s).2 = .fault (.outOfRange addr n) → (hostStep s).1.ip = addr)
    ∧ (s.memSize ≤ s.ip → hostStep (hostStep s).1 = hostStep s)

/-- 44_output.md R170: DEBUG_QUERY returns IP and the registers, changes nothing and emits nothing (decision D16). -/
def Obligations.DebugQueryReads : Prop :=
  ∀ s : State, hostCommand .debugQuery s = (s, .snapshot { ip := s.ip, regs := s.regs })

/-- 44_output.md R162: Print renders in unsigned decimal: only digits, no leading zero, and the digits' number is the
register's value (decision D13). -/
def Obligations.PrintRendersDecimal : Prop :=
  ∀ v : Word, readDecimal (render (.print v)) = v.toNat ∧ (∀ c ∈ render (.print v), c.isDigit = true)
    ∧ ((render (.print v)).head? = some '0' → render (.print v) = ['0'])

/-- 44_output.md R162, R165, V54: the Debug line of the spec's example. -/
def Obligations.DebugRendersExample : Prop :=
  render (.debug { ip := 23, regs := #v[0#32, 1#32, 2#32, 4294967294#32, 0#32, 0#32, 0#32, 0#32] })
    = "IP=23 r0=0 r1=1 r2=2 r3=4294967294 r4=0 r5=0 r6=0 r7=0".toList

/-- 44_output.md R160, R162: every event is rendered as one line, whatever the words, the case and the radix that
DIAG_FORMAT leaves open: no line holds a line break. That the break is the newline character is the model's choice
(log entry 25). -/
def Obligations.EventsRenderOneLine : Prop :=
  ∀ ev : OutputEvent, '\n' ∉ render ev

/-- 44_output.md R161, R162: the unknown-opcode line contains the opcode as two hexadecimal digits and, apart from
them, the offset in one radix from 2 to 16, whatever the words, the case and the radix that DIAG_FORMAT leaves open. -/
def Obligations.UnknownOpcodeLineReports : Prop :=
  ∃ radix : Nat, 2 ≤ radix ∧ radix ≤ 16 ∧ ∀ (op : Byte) (offset : Nat), ∃ hex off head middle tail : List Char,
    (render (.unknownOpcodeDiag op offset) = head ++ hex ++ middle ++ off ++ tail
      ∨ render (.unknownOpcodeDiag op offset) = head ++ off ++ middle ++ hex ++ tail)
    ∧ hex.length = 2 ∧ readNumeral 16 hex = op.toNat ∧ (∀ c ∈ hex, c ∈ "0123456789abcdefABCDEF".toList)
    ∧ off ≠ [] ∧ readNumeral radix off = offset
    ∧ (∀ c ∈ off, c ∈ "0123456789abcdefABCDEF".toList ∧ digitValue c < radix)

/-- 44_output.md R162, 60_exceptions.md R192: the summary line contains, apart from each other and in some order, the
steps executed and the operation count in decimal digits and the elapsed time in seconds as a decimal number: a sign
if it is below 0, digits, and nothing or a point and digits, to less than one unit of the last digit. That these
numbers are decimal, and that an open number of digits shows the time, is the model's choice (log entry 24). -/
def Obligations.SummaryLineReports : Prop :=
  ∀ (steps ops : Nat) (elapsed : Rat), ∃ stepsText opsText timeText a b c d x y z : List Char,
    render (.summary steps ops elapsed) = a ++ x ++ b ++ y ++ c ++ z ++ d
    ∧ [x, y, z].Perm [stepsText, opsText, timeText]
    ∧ IsDigits stepsText ∧ readDecimal stepsText = steps
    ∧ IsDigits opsText ∧ readDecimal opsText = ops
    ∧ ShowsRational timeText elapsed

/-- In the model's form of the open words, an unknown-opcode line tells its opcode and its offset, and a summary line
its steps and its operation count: equal lines have equal fields. The spec says what these lines report (44_output.md
R162, 60_exceptions.md R192), but not this: it rests on the model's choices that the words are the same from line to
line (log entries 7 and 24) and that those between two numbers never continue the first and are not empty (log entry
24, DESIGN CHOICE). -/
def Obligations.DiagnosticLinesTellFields : Prop :=
  (∀ (op op' : Byte) (offset offset' : Nat),
      render (.unknownOpcodeDiag op offset) = render (.unknownOpcodeDiag op' offset') → op = op' ∧ offset = offset')
  ∧ (∀ (steps steps' ops ops' : Nat) (elapsed elapsed' : Rat),
      render (.summary steps ops elapsed) = render (.summary steps' ops' elapsed') → steps = steps' ∧ ops = ops')
end

