-- ==== Sys2Proof/Laws/Decode.lean ====
section
/-!
SUPPORT. The opcode table and the byte order, read in both directions.
-/
namespace Sys2Proof

theorem Opcode.ofByte_byte (o : Opcode) : Opcode.ofByte o.byte = some o := by cases o <;> decide

/-- The opcode table has one byte for each operation and one operation for each of its bytes. -/
theorem Opcode.ofByte_eq_some {b : Byte} {o : Opcode} : Opcode.ofByte b = some o ↔ b = o.byte := by
  constructor
  · intro h
    have h' := List.find?_some (p := fun o : Opcode => o.byte == b) h
    exact (beq_iff_eq.1 h').symm
  · rintro rfl; exact Opcode.ofByte_byte o

/-- A byte appended below a number. -/
theorem toNat_append_byte {n : Nat} (x : BitVec n) (b : Byte) : (x ++ b).toNat = x.toNat * 256 + b.toNat := by
  rw [BitVec.toNat_append, ← Nat.shiftLeft_add_eq_or_of_lt b.isLt, Nat.shiftLeft_eq]

/-- The number of four bytes, lowest address most significant (20_memory.md R42). -/
theorem bigEndian_toNat (b0 b1 b2 b3 : Byte) :
    (bigEndian b0 b1 b2 b3).toNat = b0.toNat * 2 ^ 24 + b1.toNat * 2 ^ 16 + b2.toNat * 2 ^ 8 + b3.toNat := by
  simp only [bigEndian, toNat_append_byte]
  omega

/-- A word's bytes, put together again, are the word. -/
theorem bigEndian_wordBytes (w : Word) :
    bigEndian (w.extractLsb' 24 8) (w.extractLsb' 16 8) (w.extractLsb' 8 8) (w.extractLsb' 0 8) = w := by
  apply BitVec.eq_of_toNat_eq
  have := w.isLt
  simp only [bigEndian_toNat, BitVec.extractLsb'_toNat, Nat.shiftRight_eq_div_pow]
  omega

/-- The bytes of the word of four bytes are those bytes. -/
theorem wordBytes_bigEndian (b0 b1 b2 b3 : Byte) : wordBytes (bigEndian b0 b1 b2 b3) = [b0, b1, b2, b3] := by
  have h0 := b0.isLt; have h1 := b1.isLt; have h2 := b2.isLt; have h3 := b3.isLt
  simp only [wordBytes, List.cons.injEq, and_true]
  refine ⟨?_, ?_, ?_, ?_⟩ <;> apply BitVec.eq_of_toNat_eq <;>
    simp only [BitVec.extractLsb'_toNat, bigEndian_toNat, Nat.shiftRight_eq_div_pow] <;> omega

end Sys2Proof
end

