-- ==== Sys2Proof/Laws/State.lean ====
section
/-!
SUPPORT. One lemma per field per update of the state, and the register read after a register write.
-/
namespace Sys2Proof.Machine

@[simp] theorem State.setReg_memSize (s : State) (i : Fin 8) (v : Word) :
    (s.setReg i v).memSize = s.memSize := rfl
@[simp] theorem State.setReg_mem (s : State) (i : Fin 8) (v : Word) :
    (s.setReg i v).mem = s.mem := rfl
@[simp] theorem State.setReg_regs (s : State) (i : Fin 8) (v : Word) :
    (s.setReg i v).regs = s.regs.set i v := rfl
@[simp] theorem State.setReg_ip (s : State) (i : Fin 8) (v : Word) :
    (s.setReg i v).ip = s.ip := rfl
@[simp] theorem State.setReg_running (s : State) (i : Fin 8) (v : Word) :
    (s.setReg i v).running = s.running := rfl
@[simp] theorem State.setReg_stepCount (s : State) (i : Fin 8) (v : Word) :
    (s.setReg i v).stepCount = s.stepCount := rfl
@[simp] theorem State.setReg_opCount (s : State) (i : Fin 8) (v : Word) :
    (s.setReg i v).opCount = s.opCount := rfl
@[simp] theorem State.setReg_out (s : State) (i : Fin 8) (v : Word) :
    (s.setReg i v).out = s.out := rfl

@[simp] theorem State.setIp_memSize (s : State) (a : Nat) :
    (s.setIp a).memSize = s.memSize := rfl
@[simp] theorem State.setIp_mem (s : State) (a : Nat) :
    (s.setIp a).mem = s.mem := rfl
@[simp] theorem State.setIp_regs (s : State) (a : Nat) :
    (s.setIp a).regs = s.regs := rfl
@[simp] theorem State.setIp_ip (s : State) (a : Nat) :
    (s.setIp a).ip = a := rfl
@[simp] theorem State.setIp_running (s : State) (a : Nat) :
    (s.setIp a).running = s.running := rfl
@[simp] theorem State.setIp_stepCount (s : State) (a : Nat) :
    (s.setIp a).stepCount = s.stepCount := rfl
@[simp] theorem State.setIp_opCount (s : State) (a : Nat) :
    (s.setIp a).opCount = s.opCount := rfl
@[simp] theorem State.setIp_out (s : State) (a : Nat) :
    (s.setIp a).out = s.out := rfl

@[simp] theorem State.countOp_memSize (s : State) :
    (s.countOp).memSize = s.memSize := rfl
@[simp] theorem State.countOp_mem (s : State) :
    (s.countOp).mem = s.mem := rfl
@[simp] theorem State.countOp_regs (s : State) :
    (s.countOp).regs = s.regs := rfl
@[simp] theorem State.countOp_ip (s : State) :
    (s.countOp).ip = s.ip := rfl
@[simp] theorem State.countOp_running (s : State) :
    (s.countOp).running = s.running := rfl
@[simp] theorem State.countOp_stepCount (s : State) :
    (s.countOp).stepCount = s.stepCount := rfl
@[simp] theorem State.countOp_opCount (s : State) :
    (s.countOp).opCount = s.opCount + 1 := rfl
@[simp] theorem State.countOp_out (s : State) :
    (s.countOp).out = s.out := rfl

@[simp] theorem State.emit_memSize (s : State) (e : OutputEvent) :
    (s.emit e).memSize = s.memSize := rfl
@[simp] theorem State.emit_mem (s : State) (e : OutputEvent) :
    (s.emit e).mem = s.mem := rfl
@[simp] theorem State.emit_regs (s : State) (e : OutputEvent) :
    (s.emit e).regs = s.regs := rfl
@[simp] theorem State.emit_ip (s : State) (e : OutputEvent) :
    (s.emit e).ip = s.ip := rfl
@[simp] theorem State.emit_running (s : State) (e : OutputEvent) :
    (s.emit e).running = s.running := rfl
@[simp] theorem State.emit_stepCount (s : State) (e : OutputEvent) :
    (s.emit e).stepCount = s.stepCount := rfl
@[simp] theorem State.emit_opCount (s : State) (e : OutputEvent) :
    (s.emit e).opCount = s.opCount := rfl
@[simp] theorem State.emit_out (s : State) (e : OutputEvent) :
    (s.emit e).out = s.out ++ [e] := rfl

@[simp] theorem State.storeAtIp_memSize (s : State) (bs : List Byte) :
    (s.storeAtIp bs).memSize = s.memSize := rfl
@[simp] theorem State.storeAtIp_mem (s : State) (bs : List Byte) :
    (s.storeAtIp bs).mem = s.mem.writeBytes s.ip (bs.take (s.memSize - s.ip)) := rfl
@[simp] theorem State.storeAtIp_regs (s : State) (bs : List Byte) :
    (s.storeAtIp bs).regs = s.regs := rfl
@[simp] theorem State.storeAtIp_ip (s : State) (bs : List Byte) :
    (s.storeAtIp bs).ip = s.ip := rfl
@[simp] theorem State.storeAtIp_running (s : State) (bs : List Byte) :
    (s.storeAtIp bs).running = s.running := rfl
@[simp] theorem State.storeAtIp_stepCount (s : State) (bs : List Byte) :
    (s.storeAtIp bs).stepCount = s.stepCount := rfl
@[simp] theorem State.storeAtIp_opCount (s : State) (bs : List Byte) :
    (s.storeAtIp bs).opCount = s.opCount := rfl
@[simp] theorem State.storeAtIp_out (s : State) (bs : List Byte) :
    (s.storeAtIp bs).out = s.out := rfl

@[simp] theorem State.writeSel_memSize (s : State) (b : Byte) (v : Word) :
    (s.writeSel b v).memSize = s.memSize := rfl
@[simp] theorem State.writeSel_mem (s : State) (b : Byte) (v : Word) :
    (s.writeSel b v).mem = s.mem := rfl
@[simp] theorem State.writeSel_regs (s : State) (b : Byte) (v : Word) :
    (s.writeSel b v).regs = s.regs.set (regSel b) v := rfl
@[simp] theorem State.writeSel_ip (s : State) (b : Byte) (v : Word) :
    (s.writeSel b v).ip = s.ip := rfl
@[simp] theorem State.writeSel_running (s : State) (b : Byte) (v : Word) :
    (s.writeSel b v).running = s.running := rfl
@[simp] theorem State.writeSel_stepCount (s : State) (b : Byte) (v : Word) :
    (s.writeSel b v).stepCount = s.stepCount := rfl
@[simp] theorem State.writeSel_opCount (s : State) (b : Byte) (v : Word) :
    (s.writeSel b v).opCount = s.opCount := rfl
@[simp] theorem State.writeSel_out (s : State) (b : Byte) (v : Word) :
    (s.writeSel b v).out = s.out := rfl

@[simp] theorem State.stop_memSize (s : State) :
    (s.stop).memSize = s.memSize := rfl
@[simp] theorem State.stop_mem (s : State) :
    (s.stop).mem = s.mem := rfl
@[simp] theorem State.stop_regs (s : State) :
    (s.stop).regs = s.regs := rfl
@[simp] theorem State.stop_ip (s : State) :
    (s.stop).ip = s.ip := rfl
@[simp] theorem State.stop_running (s : State) :
    (s.stop).running = false := rfl
@[simp] theorem State.stop_stepCount (s : State) :
    (s.stop).stepCount = s.stepCount := rfl
@[simp] theorem State.stop_opCount (s : State) :
    (s.stop).opCount = s.opCount := rfl
@[simp] theorem State.stop_out (s : State) :
    (s.stop).out = s.out := rfl

@[simp] theorem State.countStep_memSize (s : State) :
    (s.countStep).memSize = s.memSize := rfl
@[simp] theorem State.countStep_mem (s : State) :
    (s.countStep).mem = s.mem := rfl
@[simp] theorem State.countStep_regs (s : State) :
    (s.countStep).regs = s.regs := rfl
@[simp] theorem State.countStep_ip (s : State) :
    (s.countStep).ip = s.ip := rfl
@[simp] theorem State.countStep_running (s : State) :
    (s.countStep).running = s.running := rfl
@[simp] theorem State.countStep_stepCount (s : State) :
    (s.countStep).stepCount = s.stepCount + 1 := rfl
@[simp] theorem State.countStep_opCount (s : State) :
    (s.countStep).opCount = s.opCount := rfl
@[simp] theorem State.countStep_out (s : State) :
    (s.countStep).out = s.out := rfl

@[simp] theorem State.afterFetch_memSize (s : State) (n : Nat) :
    (s.afterFetch n).memSize = s.memSize := rfl
@[simp] theorem State.afterFetch_mem (s : State) (n : Nat) :
    (s.afterFetch n).mem = s.mem := rfl
@[simp] theorem State.afterFetch_regs (s : State) (n : Nat) :
    (s.afterFetch n).regs = s.regs := rfl
@[simp] theorem State.afterFetch_ip (s : State) (n : Nat) :
    (s.afterFetch n).ip = s.ip + n := rfl
@[simp] theorem State.afterFetch_running (s : State) (n : Nat) :
    (s.afterFetch n).running = s.running := rfl
@[simp] theorem State.afterFetch_stepCount (s : State) (n : Nat) :
    (s.afterFetch n).stepCount = s.stepCount := rfl
@[simp] theorem State.afterFetch_opCount (s : State) (n : Nat) :
    (s.afterFetch n).opCount = s.opCount + 1 := rfl
@[simp] theorem State.afterFetch_out (s : State) (n : Nat) :
    (s.afterFetch n).out = s.out := rfl

@[simp] theorem takeUnknownOpcode_memSize (s : State) (op : Byte) (a : Nat) :
    (takeUnknownOpcode op a s).memSize = s.memSize := rfl
@[simp] theorem takeUnknownOpcode_mem (s : State) (op : Byte) (a : Nat) :
    (takeUnknownOpcode op a s).mem = s.mem := rfl
@[simp] theorem takeUnknownOpcode_regs (s : State) (op : Byte) (a : Nat) :
    (takeUnknownOpcode op a s).regs = s.regs := rfl
@[simp] theorem takeUnknownOpcode_ip (s : State) (op : Byte) (a : Nat) :
    (takeUnknownOpcode op a s).ip = s.ip := rfl
@[simp] theorem takeUnknownOpcode_running (s : State) (op : Byte) (a : Nat) :
    (takeUnknownOpcode op a s).running = false := rfl
@[simp] theorem takeUnknownOpcode_stepCount (s : State) (op : Byte) (a : Nat) :
    (takeUnknownOpcode op a s).stepCount = s.stepCount := rfl
@[simp] theorem takeUnknownOpcode_opCount (s : State) (op : Byte) (a : Nat) :
    (takeUnknownOpcode op a s).opCount = s.opCount := rfl
@[simp] theorem takeUnknownOpcode_out (s : State) (op : Byte) (a : Nat) :
    (takeUnknownOpcode op a s).out = s.out ++ [.unknownOpcodeDiag op a] := rfl

@[simp] theorem containFault_memSize (s : State) (info : FaultInfo) :
    (containFault info s).memSize = s.memSize := rfl
@[simp] theorem containFault_mem (s : State) (info : FaultInfo) :
    (containFault info s).mem = s.mem := rfl
@[simp] theorem containFault_regs (s : State) (info : FaultInfo) :
    (containFault info s).regs = s.regs := rfl
@[simp] theorem containFault_ip (s : State) (info : FaultInfo) :
    (containFault info s).ip = s.ip := rfl
@[simp] theorem containFault_running (s : State) (info : FaultInfo) :
    (containFault info s).running = false := rfl
@[simp] theorem containFault_stepCount (s : State) (info : FaultInfo) :
    (containFault info s).stepCount = s.stepCount := rfl
@[simp] theorem containFault_opCount (s : State) (info : FaultInfo) :
    (containFault info s).opCount = s.opCount := rfl
@[simp] theorem containFault_out (s : State) (info : FaultInfo) :
    (containFault info s).out = s.out ++ [.crashDiag info] := rfl

@[simp] theorem runBegin_memSize (s : State) :
    (runBegin s).memSize = s.memSize := rfl
@[simp] theorem runBegin_mem (s : State) :
    (runBegin s).mem = s.mem := rfl
@[simp] theorem runBegin_regs (s : State) :
    (runBegin s).regs = s.regs := rfl
@[simp] theorem runBegin_ip (s : State) :
    (runBegin s).ip = s.ip := rfl
@[simp] theorem runBegin_running (s : State) :
    (runBegin s).running = true := rfl
@[simp] theorem runBegin_stepCount (s : State) :
    (runBegin s).stepCount = 0 := rfl
@[simp] theorem runBegin_opCount (s : State) :
    (runBegin s).opCount = 0 := rfl
@[simp] theorem runBegin_out (s : State) :
    (runBegin s).out = s.out := rfl

@[simp] theorem hostReset_memSize (s : State) :
    (hostReset s).memSize = s.memSize := rfl
@[simp] theorem hostReset_mem (s : State) :
    (hostReset s).mem = s.mem := rfl
@[simp] theorem hostReset_regs (s : State) :
    (hostReset s).regs = Vector.replicate 8 0#32 := rfl
@[simp] theorem hostReset_ip (s : State) :
    (hostReset s).ip = 0 := rfl
@[simp] theorem hostReset_running (s : State) :
    (hostReset s).running = false := rfl
@[simp] theorem hostReset_stepCount (s : State) :
    (hostReset s).stepCount = 0 := rfl
@[simp] theorem hostReset_opCount (s : State) :
    (hostReset s).opCount = 0 := rfl
@[simp] theorem hostReset_out (s : State) :
    (hostReset s).out = s.out := rfl

/-- Power-on is RESET plus MEM at MEM_INIT (70_reset_and_hazards.md R211): a RESET right after it changes nothing. -/
theorem hostReset_powerOn (c : Config) : hostReset (State.powerOn c) = State.powerOn c := rfl

/-! ## Registers -/

@[simp] theorem regSel_val (b : Byte) : (regSel b).val = b.toNat % 8 := rfl

/-- Reading a register after a write: the value written, or what stood there. -/
theorem State.reg_setReg (s : State) (i j : Fin 8) (v : Word) :
    (s.setReg i v).reg j = if j = i then v else s.reg j := by
  simp only [State.reg, State.setReg, Fin.getElem_fin, Vector.getElem_set, Fin.ext_iff, eq_comm]

@[simp] theorem State.reg_setReg_self (s : State) (i : Fin 8) (v : Word) : (s.setReg i v).reg i = v := by
  simp [State.reg_setReg]

theorem State.reg_setReg_ne (s : State) {i j : Fin 8} (v : Word) (h : j ≠ i) : (s.setReg i v).reg j = s.reg j := by
  simp [State.reg_setReg, h]

/-- Two states with the same registers read the same registers. -/
theorem State.reg_congr {s t : State} (h : t.regs = s.regs) (i : Fin 8) : t.reg i = s.reg i := by
  simp [State.reg, h]

/-- A selector's low three bits decide the register it names (10_state.md R22). -/
theorem regSel_congr {b c : Byte} (h : b.extractLsb' 0 3 = c.extractLsb' 0 3) : regSel b = regSel c := by
  have h' := congrArg BitVec.toNat h
  simpa [Fin.ext_iff, BitVec.extractLsb'_toNat] using h'

end Sys2Proof.Machine
end

