-- ==== Sys2Proof/Laws/Fetch.lean ====
section
/-!
SUPPORT. What each fetch does, said once: its answer in every case, and the inversion of an instruction's fetch.
-/
namespace Sys2Proof.Machine

@[simp] theorem Fetch.andThen_got {α β : Type} (v : α) (s : State) (k : α → State → Fetch β) :
    (Fetch.got v s).andThen k = k v s := rfl

@[simp] theorem Fetch.andThen_outOfRange {α β : Type} (addr n : Nat) (s : State) (k : α → State → Fetch β) :
    (Fetch.outOfRange addr n s).andThen k = .outOfRange addr n s := rfl

theorem State.afterFetch_setIp (s : State) (m n : Nat) : (s.afterFetch m).setIp (s.ip + n) = s.afterFetch n := rfl

theorem fetchU8_of_lt {s : State} (h : s.ip < s.memSize) :
    fetchU8 s = .got (s.mem.read s.ip) (s.setIp (s.ip + 1)) := if_neg (by omega)

theorem fetchU8_of_ge {s : State} (h : s.memSize ≤ s.ip) : fetchU8 s = .outOfRange s.ip 1 s := if_pos h

theorem fetchU32_of_le {s : State} (h : s.ip + 4 ≤ s.memSize) :
    fetchU32 s = .got (s.mem.readWord s.ip) (s.setIp (s.ip + 4)) := if_neg (by omega)

theorem fetchU32_of_gt {s : State} (h : s.memSize < s.ip + 4) : fetchU32 s = .outOfRange s.ip 4 s := if_pos h

/-! ## The operand fetches of each format, after the opcode of the instruction at `s.ip` -/

theorem fetchReg_afterFetch (mk : Byte → Instr) (s : State) :
    fetchReg mk (s.afterFetch 1) =
      if s.memSize ≤ s.ip + 1 then .outOfRange (s.ip + 1) 1 (s.afterFetch 1)
      else .got (.instr (mk (s.mem.read (s.ip + 1)))) (s.afterFetch 2) := by
  unfold fetchReg
  split
  · next h => rw [fetchU8_of_ge (by simpa using h)]; rfl
  · next h => rw [fetchU8_of_lt (by simpa using h)]; rfl

theorem fetchRegReg_afterFetch (mk : Byte → Byte → Instr) (s : State) :
    fetchRegReg mk (s.afterFetch 1) =
      if s.memSize ≤ s.ip + 1 then .outOfRange (s.ip + 1) 1 (s.afterFetch 1)
      else if s.memSize ≤ s.ip + 2 then .outOfRange (s.ip + 2) 1 (s.afterFetch 2)
      else .got (.instr (mk (s.mem.read (s.ip + 1)) (s.mem.read (s.ip + 2)))) (s.afterFetch 3) := by
  unfold fetchRegReg
  split
  · next h => rw [fetchU8_of_ge (by simpa using h)]; rfl
  · next h =>
    rw [fetchU8_of_lt (by simpa using h), Fetch.andThen_got]
    show (fetchU8 (s.afterFetch 2)).andThen _ = _
    split
    · next h2 => rw [fetchU8_of_ge (by simpa using h2)]; rfl
    · next h2 => rw [fetchU8_of_lt (by simpa using h2)]; rfl

theorem fetchWord_afterFetch (mk : Word → Instr) (s : State) :
    fetchWord mk (s.afterFetch 1) =
      if s.memSize < s.ip + 5 then .outOfRange (s.ip + 1) 4 (s.afterFetch 1)
      else .got (.instr (mk (s.mem.readWord (s.ip + 1)))) (s.afterFetch 5) := by
  unfold fetchWord
  split
  · next h => rw [fetchU32_of_gt (by simp; omega)]; rfl
  · next h => rw [fetchU32_of_le (by simp; omega)]; rfl

theorem fetchRegWord_afterFetch (mk : Byte → Word → Instr) (s : State) :
    fetchRegWord mk (s.afterFetch 1) =
      if s.memSize ≤ s.ip + 1 then .outOfRange (s.ip + 1) 1 (s.afterFetch 1)
      else if s.memSize < s.ip + 6 then .outOfRange (s.ip + 2) 4 (s.afterFetch 2)
      else .got (.instr (mk (s.mem.read (s.ip + 1)) (s.mem.readWord (s.ip + 2)))) (s.afterFetch 6) := by
  unfold fetchRegWord
  split
  · next h => rw [fetchU8_of_ge (by simpa using h)]; rfl
  · next h =>
    rw [fetchU8_of_lt (by simpa using h), Fetch.andThen_got]
    show (fetchU32 (s.afterFetch 2)).andThen _ = _
    split
    · next h2 => rw [fetchU32_of_gt (by simp; omega)]; rfl
    · next h2 => rw [fetchU32_of_le (by simp; omega)]; rfl

/-! ## The fetch of an instruction -/

theorem fetchInstr_of_ge {s : State} (h : s.memSize ≤ s.ip) : fetchInstr s = .outOfRange s.ip 1 s := by
  simp [fetchInstr, fetchU8_of_ge h]

theorem fetchInstr_of_lt {s : State} (h : s.ip < s.memSize) :
    fetchInstr s = fetchAfterOpcode (s.mem.read s.ip) (s.afterFetch 1) := by
  simp only [fetchInstr, fetchU8_of_lt h, Fetch.andThen_got]
  rfl

theorem fetchInstr_unknown {s : State} (h : s.ip < s.memSize) (ho : Opcode.ofByte (s.mem.read s.ip) = none) :
    fetchInstr s = .got (.unknown (s.mem.read s.ip)) (s.afterFetch 1) := by
  simp [fetchInstr_of_lt h, fetchAfterOpcode, ho]

theorem fetchInstr_operands {s : State} {o : Opcode} (h : s.ip < s.memSize)
    (ho : Opcode.ofByte (s.mem.read s.ip) = some o) : fetchInstr s = fetchOperands o (s.afterFetch 1) := by
  simp [fetchInstr_of_lt h, fetchAfterOpcode, ho]

/-- The operand fetches of any operation: a fault at the first that does not fit, or an instruction of that operation
and the state past it. -/
theorem fetchOperands_cases (o : Opcode) (s : State) (h : s.ip < s.memSize) :
    (∃ i, fetchOperands o (s.afterFetch 1) = .got (.instr i) (s.afterFetch o.length) ∧ i.opcode = o
      ∧ s.ip + o.length ≤ s.memSize)
    ∨ ∃ k n, fetchOperands o (s.afterFetch 1) = .outOfRange (s.ip + k) n (s.afterFetch k)
      ∧ 1 ≤ k ∧ k ≤ 2 ∧ (n = 1 ∨ n = 4) ∧ s.memSize < s.ip + k + n ∧ s.ip + k ≤ s.memSize
      ∧ s.memSize < s.ip + o.length := by
  cases o <;> simp only [fetchOperands, fetchReg_afterFetch, fetchRegReg_afterFetch, fetchWord_afterFetch,
    fetchRegWord_afterFetch, Opcode.length]
  case nop => exact .inl ⟨_, rfl, rfl, h⟩
  case halt => exact .inl ⟨_, rfl, rfl, h⟩
  case debugState => exact .inl ⟨_, rfl, rfl, h⟩
  all_goals
    repeat' split
    all_goals first
      | exact .inl ⟨_, rfl, rfl, by omega⟩
      | exact .inr ⟨_, _, rfl, by omega, by omega, by omega, by omega, by omega, by omega⟩

/-- The three ways the fetch of an instruction ends. -/
theorem fetchInstr_cases (s : State) :
    (∃ i, fetchInstr s = .got (.instr i) (s.afterFetch i.length)
      ∧ Opcode.ofByte (s.mem.read s.ip) = some i.opcode ∧ s.ip < s.memSize ∧ s.ip + i.length ≤ s.memSize)
    ∨ (fetchInstr s = .got (.unknown (s.mem.read s.ip)) (s.afterFetch 1)
      ∧ Opcode.ofByte (s.mem.read s.ip) = none ∧ s.ip < s.memSize)
    ∨ (fetchInstr s = .outOfRange s.ip 1 s ∧ s.memSize ≤ s.ip)
    ∨ ∃ o k n, fetchInstr s = .outOfRange (s.ip + k) n (s.afterFetch k)
      ∧ Opcode.ofByte (s.mem.read s.ip) = some o ∧ s.ip < s.memSize ∧ 1 ≤ k ∧ k ≤ 2 ∧ (n = 1 ∨ n = 4)
      ∧ s.memSize < s.ip + k + n ∧ s.ip + k ≤ s.memSize ∧ s.memSize < s.ip + o.length := by
  rcases Nat.lt_or_ge s.ip s.memSize with h | h
  · cases ho : Opcode.ofByte (s.mem.read s.ip) with
    | none => exact .inr (.inl ⟨fetchInstr_unknown h ho, rfl, h⟩)
    | some o =>
      rw [fetchInstr_operands h ho]
      rcases fetchOperands_cases o s h with ⟨i, hf, rfl, hl⟩ | ⟨k, n, hf, hr⟩
      · exact .inl ⟨i, hf, rfl, h, hl⟩
      · exact .inr (.inr (.inr ⟨o, k, n, hf, rfl, h, hr⟩))
  · exact .inr (.inr (.inl ⟨fetchInstr_of_ge h, h⟩))

end Sys2Proof.Machine
end

