-- ==== Sys2Proof/Laws/Memory.lean ====
section
/-!
SUPPORT. Memory: a read after a write, and that every operation keeps the canonical form.
-/
namespace Sys2Proof.Machine

@[simp] theorem Memory.read_nil (a : Nat) : Memory.read [] a = Config.unlistedByte := rfl

theorem Memory.read_cons (b : Nat) (w : Byte) (m : Memory) (a : Nat) :
    Memory.read ((b, w) :: m) a = if a = b then w else Memory.read m a := rfl

/-- An address that no cell lists reads as the unlisted byte. -/
theorem Memory.read_of_not_listed {m : Memory} {a : Nat} (h : ∀ x ∈ m, x.1 ≠ a) :
    m.read a = Config.unlistedByte := by
  induction m with
  | nil => rfl
  | cons x m ih =>
    rw [show x = (x.1, x.2) from rfl, Memory.read_cons, if_neg (fun e => h x (by simp) e.symm)]
    exact ih fun y hy => h y (by simp [hy])

/-- Below the first listed address nothing is listed. -/
theorem Memory.read_below {m : Memory} {a b : Nat} (h : ∀ x ∈ m, b < x.1) (hab : a ≤ b) :
    m.read a = Config.unlistedByte :=
  Memory.read_of_not_listed fun x hx => by have := h x hx; omega

theorem Memory.read_put {a : Nat} {v : Byte} {m : Memory} (h : m.read a = Config.unlistedByte) (c : Nat) :
    (Memory.put a v m).read c = if c = a then v else m.read c := by
  unfold Memory.put
  split
  · next hv => split <;> simp_all
  · exact Memory.read_cons a v m c

/-- A read after a write of one byte, in a memory of the canonical form. -/
theorem Memory.read_write {m : Memory} (hm : m.wf) (a : Nat) (v : Byte) (c : Nat) :
    (m.write a v).read c = if c = a then v else m.read c := by
  induction m with
  | nil => exact Memory.read_put rfl c
  | cons x m ih =>
    obtain ⟨b, w⟩ := x
    obtain ⟨hsort, hne⟩ := hm
    obtain ⟨hlt, hsort'⟩ := List.pairwise_cons.1 hsort
    have hwf : Memory.wf m := ⟨hsort', fun y hy => hne y (by simp [hy])⟩
    unfold Memory.write
    split
    · next hab =>
      refine Memory.read_put (Memory.read_of_not_listed ?_) c
      intro y hy
      rcases List.mem_cons.1 hy with rfl | hy
      · simp; omega
      · have := hlt y hy; simp at this; omega
    · split
      · next hab =>
        subst hab
        rw [Memory.read_put (Memory.read_below (b := a) (fun y hy => hlt y hy) (Nat.le_refl a)), Memory.read_cons]
        split <;> rfl
      · rw [Memory.read_cons, ih hwf, Memory.read_cons]
        split <;> split <;> simp_all

/-- What a cell of the result of a write can be. -/
theorem Memory.mem_write {m : Memory} {a : Nat} {v : Byte} {x : Host.Cell} (h : x ∈ m.write a v) :
    x ∈ m ∨ (x = (a, v) ∧ v ≠ Config.unlistedByte) := by
  have hput : ∀ {m' : Memory}, x ∈ Memory.put a v m' → x ∈ m' ∨ (x = (a, v) ∧ v ≠ Config.unlistedByte) := by
    intro m' h
    unfold Memory.put at h
    split at h
    · exact .inl h
    · next hv => rcases List.mem_cons.1 h with h | h
                 · exact .inr ⟨h, hv⟩
                 · exact .inl h
  induction m with
  | nil => exact hput h
  | cons y m ih =>
    obtain ⟨b, w⟩ := y
    unfold Memory.write at h
    split at h
    · exact hput h
    · split at h
      · exact (hput h).imp_left (List.mem_cons_of_mem _)
      · rcases List.mem_cons.1 h with h | h
        · exact .inl (by simp [h])
        · exact (ih h).imp_left (List.mem_cons_of_mem _)

theorem Memory.wf_put {a : Nat} {v : Byte} {m : Memory} (hm : m.wf) (h : ∀ x ∈ m, a < x.1) :
    (Memory.put a v m).wf := by
  unfold Memory.put
  split
  · exact hm
  · next hv =>
    exact ⟨List.pairwise_cons.2 ⟨h, hm.1⟩, fun x hx => by
      rcases List.mem_cons.1 hx with rfl | hx
      · exact hv
      · exact hm.2 x hx⟩

/-- A write of one byte keeps the canonical form. -/
theorem Memory.wf_write {m : Memory} (hm : m.wf) (a : Nat) (v : Byte) : (m.write a v).wf := by
  induction m with
  | nil => exact Memory.wf_put ⟨.nil, by simp⟩ (by simp)
  | cons x m ih =>
    obtain ⟨b, w⟩ := x
    obtain ⟨hlt, hsort'⟩ := List.pairwise_cons.1 hm.1
    have hwf : Memory.wf m := ⟨hsort', fun y hy => hm.2 y (by simp [hy])⟩
    unfold Memory.write
    split
    · next hab =>
      refine Memory.wf_put hm fun y hy => ?_
      rcases List.mem_cons.1 hy with rfl | hy
      · exact hab
      · exact Nat.lt_trans hab (hlt y hy)
    · split
      · next hab => subst hab; exact Memory.wf_put hwf hlt
      · next hge hne =>
        refine ⟨List.pairwise_cons.2 ⟨fun y hy => ?_, (ih hwf).1⟩, fun y hy => ?_⟩
        · rcases Memory.mem_write hy with h | ⟨rfl, -⟩
          · exact hlt y h
          · simp; omega
        · rcases List.mem_cons.1 hy with rfl | hy
          · exact hm.2 _ (by simp)
          · exact (ih hwf).2 y hy

/-- A write of several bytes keeps the canonical form. -/
theorem Memory.wf_writeBytes {m : Memory} (hm : m.wf) (a : Nat) (bs : List Byte) : (m.writeBytes a bs).wf := by
  induction bs generalizing m a with
  | nil => exact hm
  | cons v vs ih => exact ih (Memory.wf_write hm a v) (a + 1)

/-- The cells of a write of several bytes lie where the old cells lay or where bytes were written. -/
theorem Memory.mem_writeBytes {m : Memory} {a : Nat} {bs : List Byte} {x : Host.Cell}
    (h : x ∈ m.writeBytes a bs) : x ∈ m ∨ (a ≤ x.1 ∧ x.1 < a + bs.length) := by
  induction bs generalizing m a with
  | nil => exact .inl h
  | cons v vs ih =>
    rcases ih h with h | h
    · rcases Memory.mem_write h with h | ⟨rfl, -⟩
      · exact .inl h
      · exact .inr (by simp)
    · exact .inr (by simp only [List.length_cons]; omega)

/-- A read after a write of several bytes, in a memory of the canonical form. -/
theorem Memory.read_writeBytes {m : Memory} (hm : m.wf) (a : Nat) (bs : List Byte) (c : Nat) :
    (m.writeBytes a bs).read c = if h : a ≤ c ∧ c - a < bs.length then bs[c - a] else m.read c := by
  induction bs generalizing m a with
  | nil => simp [Memory.writeBytes]
  | cons v vs ih =>
    rw [Memory.writeBytes, ih (Memory.wf_write hm a v), Memory.read_write hm]
    by_cases hca : c = a
    · subst hca
      rw [dif_neg (by omega), if_pos rfl, dif_pos (by simp)]
      simp
    · by_cases hle : a + 1 ≤ c
      · obtain ⟨k, rfl⟩ : ∃ k, c = a + 1 + k := ⟨c - (a + 1), by omega⟩
        have e1 : a + 1 + k - (a + 1) = k := by omega
        have e2 : a + 1 + k - a = k + 1 := by omega
        by_cases hk : k < vs.length
        · simp [e1, e2, hk, show a ≤ a + 1 + k by omega]
        · simp [e1, e2, hk, show ¬ (a + 1 + k = a) by omega]
      · simp [hle, hca, show ¬ a ≤ c by omega]

/-- The memory of a legal configuration at power-on is canonical (70_reset_and_hazards.md R211). -/
theorem Memory.wf_powerOn {c : Config} (h : c.WellFormed) : (State.powerOn c).mem.wf := ⟨h.2.1, h.2.2.1⟩

/-- The reset memory is canonical. -/
theorem Memory.wf_reset : State.reset.mem.wf := by decide

/-- Placing an instruction at IP keeps the canonical form. -/
theorem Memory.wf_storeAtIp {s : State} (h : s.mem.wf) (bs : List Byte) : (s.storeAtIp bs).mem.wf :=
  Memory.wf_writeBytes h _ _

end Sys2Proof.Machine
end

