-- ==== Sys2Proof/Laws/PerInstr.lean ====
section
/-!
SUPPORT. Statements about every instruction as syntax, one lemma per constructor.
-/
namespace Sys2Proof.Laws.OpcodeSelects

/-- Every instruction is well formed, its opcode byte alone selects its operation, and its length is 1 to 6 bytes
(30_encoding.md R60, R63, R66, R67). -/
def Statement (i : Instr) : Prop :=
  i.WellFormed = true ∧ Opcode.ofByte i.opcode.byte = some i.opcode ∧ 1 ≤ i.length ∧ i.length ≤ maxLength

theorem nop : Statement .nop := by simp only [Statement]; decide
theorem halt : Statement .halt := by simp only [Statement]; decide
theorem loadRegImm (reg : Byte) (imm : Word) : Statement (.loadRegImm reg imm) :=
  show true = true ∧ Opcode.ofByte Opcode.loadRegImm.byte = some .loadRegImm ∧ 1 ≤ 6 ∧ 6 ≤ maxLength by decide
theorem movRegReg (dst src : Byte) : Statement (.movRegReg dst src) :=
  show true = true ∧ Opcode.ofByte Opcode.movRegReg.byte = some .movRegReg ∧ 1 ≤ 3 ∧ 3 ≤ maxLength by decide
theorem addRegReg (dst src : Byte) : Statement (.addRegReg dst src) :=
  show true = true ∧ Opcode.ofByte Opcode.addRegReg.byte = some .addRegReg ∧ 1 ≤ 3 ∧ 3 ≤ maxLength by decide
theorem subRegReg (dst src : Byte) : Statement (.subRegReg dst src) :=
  show true = true ∧ Opcode.ofByte Opcode.subRegReg.byte = some .subRegReg ∧ 1 ≤ 3 ∧ 3 ≤ maxLength by decide
theorem jmp (addr : Word) : Statement (.jmp addr) :=
  show true = true ∧ Opcode.ofByte Opcode.jmp.byte = some .jmp ∧ 1 ≤ 5 ∧ 5 ≤ maxLength by decide
theorem jz (reg : Byte) (addr : Word) : Statement (.jz reg addr) :=
  show true = true ∧ Opcode.ofByte Opcode.jz.byte = some .jz ∧ 1 ≤ 6 ∧ 6 ≤ maxLength by decide
theorem printReg (reg : Byte) : Statement (.printReg reg) :=
  show true = true ∧ Opcode.ofByte Opcode.printReg.byte = some .printReg ∧ 1 ≤ 2 ∧ 2 ≤ maxLength by decide
theorem debugState : Statement .debugState := by simp only [Statement]; decide

end Sys2Proof.Laws.OpcodeSelects
end

