-- ==== Sys2Proof/Laws/Render.lean ====
section
/-!
SUPPORT. What each function of the text of an event answers: the number that its digits write, the characters they
are, and where a gap lets a number end.
-/
namespace Sys2Proof.Machine

theorem decimal_ne_nil (n : Nat) : decimal n ≠ [] := Nat.toDigits_ne_nil

theorem decimal_isDigit (n : Nat) : ∀ c ∈ decimal n, c.isDigit = true :=
  fun _ h => Nat.isDigit_of_mem_toDigits (by decide) (by decide) h

/-- The digits of a number in any radix from 2 are those of its quotient and then its last digit. -/
theorem toDigits_step {b n : Nat} (hb : 1 < b) (h : b ≤ n) :
    Nat.toDigits b n = Nat.toDigits b (n / b) ++ [Nat.digitChar (n % b)] := Nat.toDigits_of_base_le hb h

theorem readDecimal_append_digit (cs : List Char) (c : Char) :
    readDecimal (cs ++ [c]) = readDecimal cs * 10 + (c.toNat - '0'.toNat) := by simp [readDecimal]

theorem readNumeral_append_digit (r : Nat) (cs : List Char) (c : Char) :
    readNumeral r (cs ++ [c]) = readNumeral r cs * r + digitValue c := by simp [readNumeral]

theorem digitChar_toNat : ∀ k, k < 10 → (Nat.digitChar k).toNat - '0'.toNat = k := by decide

theorem digitValue_letterCase (u : Bool) : ∀ k, k < 16 → digitValue (letterCase u (Nat.digitChar k)) = k := by
  cases u <;> decide

theorem letterCase_mem (u : Bool) :
    ∀ k, k < 16 → letterCase u (Nat.digitChar k) ∈ "0123456789abcdefABCDEF".toList := by
  cases u <;> decide

@[simp] theorem readDecimal_decimal (n : Nat) : readDecimal (decimal n) = n := by
  induction n using Nat.strongRecOn with
  | ind n ih =>
    by_cases h : n < 10
    · rw [decimal, Nat.toDigits_of_lt_base h]
      simpa [readDecimal] using digitChar_toNat n h
    · rw [decimal, toDigits_step (by decide) (by omega), readDecimal_append_digit, ← decimal,
        ih (n / 10) (by omega), digitChar_toNat _ (by omega)]
      omega

theorem decimal_injective {m n : Nat} (h : decimal m = decimal n) : m = n := by
  rw [← readDecimal_decimal m, h, readDecimal_decimal]

theorem readDecimal_zeros (k : Nat) (cs : List Char) : readDecimal (List.replicate k '0' ++ cs) = readDecimal cs := by
  induction k with
  | zero => rfl
  | succ k ih => rw [← ih, List.replicate_succ, List.cons_append]; rfl

theorem readNumeral_zeros (r k : Nat) (cs : List Char) :
    readNumeral r (List.replicate k '0' ++ cs) = readNumeral r cs := by
  induction k with
  | zero => rfl
  | succ k ih =>
    rw [← ih, List.replicate_succ, List.cons_append]
    simp [readNumeral, show digitValue '0' = 0 by decide]

@[simp] theorem zeroPad_length (w : Nat) (cs : List Char) : (zeroPad w cs).length = max w cs.length := by
  simp [zeroPad]; omega

theorem radix_bounds (st : NumeralStyle) : 2 ≤ st.radix ∧ st.radix ≤ 16 := by
  simp only [NumeralStyle.radix]; omega

theorem readNumeral_toDigits {r : Nat} (u : Bool) (h2 : 2 ≤ r) (h16 : r ≤ 16) (n : Nat) :
    readNumeral r ((Nat.toDigits r n).map (letterCase u)) = n := by
  induction n using Nat.strongRecOn with
  | ind n ih =>
    by_cases h : n < r
    · rw [Nat.toDigits_of_lt_base h]
      simpa [readNumeral] using digitValue_letterCase u n (by omega)
    · have hlt : n % r < r := Nat.mod_lt _ (by omega)
      rw [toDigits_step (by omega) (by omega), List.map_append, List.map_singleton, readNumeral_append_digit,
        ih (n / r) (Nat.div_lt_self (by omega) (by omega)), digitValue_letterCase u _ (by omega), Nat.mul_comm]
      exact Nat.div_add_mod n r

/-- A numeral writes its number. -/
@[simp] theorem readNumeral_numeral (st : NumeralStyle) (n : Nat) : readNumeral st.radix (numeral st n) = n := by
  rw [numeral, zeroPad, readNumeral_zeros]
  exact readNumeral_toDigits _ (radix_bounds st).1 (radix_bounds st).2 n

theorem numeral_injective {st : NumeralStyle} {m n : Nat} (h : numeral st m = numeral st n) : m = n := by
  rw [← readNumeral_numeral st m, h, readNumeral_numeral]

theorem toDigits_mem {r : Nat} (h2 : 2 ≤ r) (n : Nat) : ∀ c ∈ Nat.toDigits r n, ∃ k, k < r ∧ c = Nat.digitChar k := by
  induction n using Nat.strongRecOn with
  | ind n ih =>
    intro c hc
    by_cases h : n < r
    · rw [Nat.toDigits_of_lt_base h, List.mem_singleton] at hc
      exact ⟨n, h, hc⟩
    · rw [toDigits_step (by omega) (by omega), List.mem_append, List.mem_singleton] at hc
      exact hc.elim (ih _ (Nat.div_lt_self (by omega) (by omega)) c) fun e => ⟨_, Nat.mod_lt _ (by omega), e⟩

/-- A numeral is made of digits of its radix, in the style's case. -/
theorem numeral_mem (st : NumeralStyle) (n : Nat) :
    ∀ c ∈ numeral st n, ∃ k, k < st.radix ∧ c = letterCase st.upper (Nat.digitChar k) := by
  intro c hc
  have hz : ∃ k, k < st.radix ∧ '0' = letterCase st.upper (Nat.digitChar k) :=
    ⟨0, by have := radix_bounds st; omega, by cases st.upper <;> decide⟩
  rw [numeral, zeroPad, List.mem_append, List.mem_replicate, List.mem_map] at hc
  rcases hc with ⟨-, rfl⟩ | ⟨d, hd, rfl⟩
  · exact hz
  · obtain ⟨k, hk, rfl⟩ := toDigits_mem (radix_bounds st).1 n d hd
    exact ⟨k, hk, rfl⟩

theorem numeral_ne_nil (st : NumeralStyle) (n : Nat) : numeral st n ≠ [] := by
  simp [numeral, zeroPad, Nat.toDigits_ne_nil]

/-- Two hexadecimal digits write their byte, in either case. -/
@[simp] theorem readNumeral_hexByte (u : Bool) (b : Byte) : readNumeral 16 (hexByte u b) = b.toNat := by
  have hb := b.isLt
  simp only [hexByte, readNumeral, hexDigit, List.foldl_cons, List.foldl_nil]
  rw [digitValue_letterCase u _ (by omega), digitValue_letterCase u _ (by omega)]
  omega

theorem hexByte_injective {u : Bool} {a b : Byte} (h : hexByte u a = hexByte u b) : a = b :=
  BitVec.eq_of_toNat_eq (by rw [← readNumeral_hexByte u a, h, readNumeral_hexByte])

/-- The open words between two numbers begin with a character that no number holds. -/
theorem gap_eq_cons (cs : List Char) : ∃ c rest, gap cs = c :: rest ∧ numeralChar c = false := by
  unfold gap
  split
  · exact ⟨_, _, rfl, by decide⟩
  · next c rest h => exact ⟨c, rest, rfl, by simpa [h] using List.head?_dropWhile_not numeralChar (oneLine cs)⟩

theorem gap_not_newline (cs : List Char) : '\n' ∉ gap cs := by
  have h : '\n' ∉ (oneLine cs).dropWhile numeralChar := fun hm =>
    absurd ((List.dropWhile_sublist _).subset hm) (by simp [oneLine])
  unfold gap
  split
  · decide
  · next e => rwa [e] at h

/-- Numbers that a gap follows are equal where the lines are, and so are the rests. -/
theorem gap_cancel {a b s t g : List Char} (ha : ∀ c ∈ a, numeralChar c = true) (hb : ∀ c ∈ b, numeralChar c = true)
    (h : a ++ (gap g ++ s) = b ++ (gap g ++ t)) : a = b ∧ s = t := by
  obtain ⟨c, rest, hg, hc⟩ := gap_eq_cons g
  rw [hg] at h
  have hab : a = b := by
    have := congrArg (List.takeWhile numeralChar) h
    simpa [List.takeWhile_append_of_pos ha, List.takeWhile_append_of_pos hb, hc] using this
  subst hab
  exact ⟨rfl, List.append_cancel_left (List.append_cancel_left h)⟩

theorem decimal_numeralChar (n : Nat) : ∀ c ∈ decimal n, numeralChar c = true :=
  fun c h => by simp [numeralChar, decimal_isDigit n c h]

theorem secondsText_numeralChar (q : Rat) : ∀ c ∈ secondsText q, numeralChar c = true := by
  intro c h
  simp only [secondsText, List.mem_append] at h
  rcases h with (h | h) | h
  · split at h <;> simp_all [numeralChar]
  · exact decimal_numeralChar _ c h
  · split at h
    · cases h
    · rw [List.mem_cons, zeroPad, List.mem_append, List.mem_replicate] at h
      rcases h with rfl | ⟨-, rfl⟩ | h
      · decide
      · decide
      · exact decimal_numeralChar _ c h

theorem numeralChar_ne_newline {cs : List Char} (h : ∀ c ∈ cs, numeralChar c = true) : '\n' ∉ cs :=
  fun hm => absurd (h _ hm) (by decide)

/-- The units an elapsed time is shown in are less than one from its size. -/
theorem elapsedUnits_near (q : Rat) :
    q.num.natAbs * 10 ^ Config.elapsedPlaces q < (elapsedUnits q + 1) * q.den
      ∧ elapsedUnits q * q.den < q.num.natAbs * 10 ^ Config.elapsedPlaces q + q.den := by
  simp only [elapsedUnits]
  generalize q.num.natAbs * 10 ^ Config.elapsedPlaces q = x
  have hd : 0 < q.den := q.den_pos
  have hm := Nat.mod_lt x hd
  have he := Nat.div_add_mod x q.den
  rw [Nat.mul_comm] at he
  split <;> simp only [Nat.add_mul, Nat.one_mul, Nat.add_zero] <;> omega

end Sys2Proof.Machine
end

