-- ==== Sys2Proof/Laws/Step.lean ====
section
/-!
SUPPORT. What each meaning, a step, a STEP and one turn of the RUN loop can do, said once.
-/
namespace Sys2Proof.Machine

/-! ## The meanings, in terms of the shared operations -/

theorem exec_nop (s : State) : exec .nop s = .next s := rfl
theorem exec_halt (s : State) : exec .halt s = .next s.stop := rfl
theorem exec_loadRegImm (r : Byte) (w : Word) (s : State) :
    exec (.loadRegImm r w) s = .next (s.setReg (regSel r) w) := rfl
theorem exec_movRegReg (d r : Byte) (s : State) :
    exec (.movRegReg d r) s = .next (s.setReg (regSel d) (s.reg (regSel r))) := rfl
theorem exec_addRegReg (d r : Byte) (s : State) :
    exec (.addRegReg d r) s = .next (s.setReg (regSel d) (s.reg (regSel d) + s.reg (regSel r))) := rfl
theorem exec_subRegReg (d r : Byte) (s : State) :
    exec (.subRegReg d r) s = .next (s.setReg (regSel d) (s.reg (regSel d) - s.reg (regSel r))) := rfl
theorem exec_jmp (addr : Word) (s : State) :
    exec (.jmp addr) s = .next (s.setIp (addr.toNat % s.memSize)) := rfl
theorem exec_printReg (r : Byte) (s : State) :
    exec (.printReg r) s = .next (s.emit (.print (s.reg (regSel r)))) := rfl
theorem exec_debugState (s : State) : exec .debugState s = .next (s.emit (.debug s.snapshot)) := rfl

theorem exec_jz (r : Byte) (addr : Word) (s : State) :
    exec (.jz r addr) s
      = .next (if s.reg (regSel r) = 0#32 then s.setIp (addr.toNat % s.memSize) else s) := by
  show (if isZero (s.reg (regSel r)) then _ else _) = _
  by_cases h : s.reg (regSel r) = 0#32
  · simp [isZero, h]; rfl
  · simp [isZero, h]

/-- Everything a fetched instruction can do: it ends in a next state that differs by at most one write. -/
theorem exec_cases (i : Instr) (s : State) : ∃ t, exec i s = .next t ∧
    ((t = s ∧ instrOutcome i = .completed) ∨ (t = s.stop ∧ i = .halt)
      ∨ ((∃ k v, t = s.setReg k v) ∧ instrOutcome i = .completed)
      ∨ ((∃ a, t = s.setIp (a % s.memSize)) ∧ instrOutcome i = .completed)
      ∨ ((∃ v, t = s.emit (.print v)) ∧ instrOutcome i = .completed)
      ∨ ((∃ snap, t = s.emit (.debug snap)) ∧ instrOutcome i = .completed)) := by
  cases i with
  | nop => exact ⟨_, rfl, .inl ⟨rfl, rfl⟩⟩
  | halt => exact ⟨_, rfl, .inr (.inl ⟨rfl, rfl⟩)⟩
  | loadRegImm r w => exact ⟨_, rfl, .inr (.inr (.inl ⟨⟨_, _, rfl⟩, rfl⟩))⟩
  | movRegReg d r => exact ⟨_, rfl, .inr (.inr (.inl ⟨⟨_, _, rfl⟩, rfl⟩))⟩
  | addRegReg d r => exact ⟨_, rfl, .inr (.inr (.inl ⟨⟨_, _, rfl⟩, rfl⟩))⟩
  | subRegReg d r => exact ⟨_, rfl, .inr (.inr (.inl ⟨⟨_, _, rfl⟩, rfl⟩))⟩
  | jmp addr => exact ⟨_, rfl, .inr (.inr (.inr (.inl ⟨⟨_, rfl⟩, rfl⟩)))⟩
  | jz r addr =>
    refine ⟨_, exec_jz r addr s, ?_⟩
    split
    · exact .inr (.inr (.inr (.inl ⟨⟨_, rfl⟩, rfl⟩)))
    · exact .inl ⟨rfl, rfl⟩
  | printReg r => exact ⟨_, rfl, .inr (.inr (.inr (.inr (.inl ⟨⟨_, rfl⟩, rfl⟩))))⟩
  | debugState => exact ⟨_, rfl, .inr (.inr (.inr (.inr (.inr ⟨⟨_, rfl⟩, rfl⟩))))⟩

/-! ## A step -/

theorem step_of_instr {s t : State} {i : Instr} (h : fetchInstr s = .got (.instr i) t) : step s = exec i t := by
  simp [step, h]

theorem step_of_unknown {s t : State} {op : Byte} (h : fetchInstr s = .got (.unknown op) t) :
    step s = .next (takeUnknownOpcode op s.ip t) := by
  simp [step, h]

theorem step_of_outOfRange {s t : State} {addr n : Nat} (h : fetchInstr s = .outOfRange addr n t) :
    step s = .fault (.outOfRange addr n t) := by
  simp [step, h, raiseOutOfRange]

/-- Everything a step can do: run a decoded instruction, stop at an unknown opcode, or fault at its opcode fetch or at
an operand fetch. -/
theorem step_cases (s : State) :
    (∃ i, step s = exec i (s.afterFetch i.length) ∧ stepOutcome s = instrOutcome i
      ∧ Opcode.ofByte (s.mem.read s.ip) = some i.opcode ∧ s.ip < s.memSize ∧ s.ip + i.length ≤ s.memSize)
    ∨ (step s = .next (takeUnknownOpcode (s.mem.read s.ip) s.ip (s.afterFetch 1))
      ∧ stepOutcome s = .unknownOpcode (s.mem.read s.ip) s.ip
      ∧ Opcode.ofByte (s.mem.read s.ip) = none ∧ s.ip < s.memSize)
    ∨ (step s = .fault (.outOfRange s.ip 1 s) ∧ stepOutcome s = .fault (.outOfRange s.ip 1) ∧ s.memSize ≤ s.ip)
    ∨ ∃ o k n, step s = .fault (.outOfRange (s.ip + k) n (s.afterFetch k))
      ∧ stepOutcome s = .fault (.outOfRange (s.ip + k) n)
      ∧ Opcode.ofByte (s.mem.read s.ip) = some o ∧ s.ip < s.memSize ∧ 1 ≤ k ∧ k ≤ 2 ∧ (n = 1 ∨ n = 4)
      ∧ s.memSize < s.ip + k + n ∧ s.ip + k ≤ s.memSize ∧ s.memSize < s.ip + o.length := by
  rcases fetchInstr_cases s with ⟨i, hf, h⟩ | ⟨hf, h⟩ | ⟨hf, h⟩ | ⟨o, k, n, hf, h⟩
  · exact .inl ⟨i, step_of_instr hf, by simp [stepOutcome, hf], h⟩
  · exact .inr (.inl ⟨step_of_unknown hf, by simp [stepOutcome, hf], h⟩)
  · exact .inr (.inr (.inl ⟨step_of_outOfRange hf, by simp [stepOutcome, hf], h⟩))
  · exact .inr (.inr (.inr ⟨o, k, n, step_of_outOfRange hf, by simp [stepOutcome, hf], h⟩))

/-- What a step that gives a next state did: it ran the instruction whose opcode byte stands at IP, or stopped at an
unknown opcode. -/
theorem step_next_cases {s t : State} (h : step s = .next t) :
    (∃ i, exec i (s.afterFetch i.length) = .next t ∧ stepOutcome s = instrOutcome i
      ∧ s.mem.read s.ip = i.opcode.byte ∧ s.ip < s.memSize ∧ s.ip + i.length ≤ s.memSize)
    ∨ (t = takeUnknownOpcode (s.mem.read s.ip) s.ip (s.afterFetch 1)
      ∧ stepOutcome s = .unknownOpcode (s.mem.read s.ip) s.ip
      ∧ Opcode.ofByte (s.mem.read s.ip) = none ∧ s.ip < s.memSize) := by
  rcases step_cases s with ⟨i, hs, ho, hb, hl⟩ | ⟨hs, hu⟩ | ⟨hs, -⟩ | ⟨o, k, n, hs, -⟩
  · exact .inl ⟨i, hs ▸ h, ho, Opcode.ofByte_eq_some.1 hb, hl⟩
  · rw [hs] at h; cases h; exact .inr ⟨rfl, hu⟩
  · rw [hs] at h; cases h
  · rw [hs] at h; cases h

/-- What a step that faults did: the opcode fetch failed, or an operand fetch of a known operation. -/
theorem step_fault_cases {s t : State} {addr n : Nat} (h : step s = .fault (.outOfRange addr n t)) :
    stepOutcome s = .fault (.outOfRange addr n) ∧
    ((addr = s.ip ∧ n = 1 ∧ t = s ∧ s.memSize ≤ s.ip)
      ∨ ∃ o k, addr = s.ip + k ∧ t = s.afterFetch k ∧ Opcode.ofByte (s.mem.read s.ip) = some o
        ∧ 1 ≤ k ∧ k ≤ 2 ∧ (n = 1 ∨ n = 4) ∧ s.memSize < s.ip + k + n ∧ s.ip + k ≤ s.memSize
        ∧ s.memSize < s.ip + o.length) := by
  rcases step_cases s with ⟨i, hs, -⟩ | ⟨hs, -⟩ | ⟨hs, ho, hge⟩ | ⟨o, k, n', hs, ho, hob, -, h1, h2, hr⟩
  · obtain ⟨t', ht, -⟩ := exec_cases i (s.afterFetch i.length)
    rw [hs, ht] at h; cases h
  · rw [hs] at h; cases h
  · rw [hs] at h; cases h; exact ⟨ho, .inl ⟨rfl, rfl, rfl, hge⟩⟩
  · rw [hs] at h; cases h; exact ⟨ho, .inr ⟨o, k, rfl, rfl, hob, h1, h2, hr⟩⟩

/-! ## STEP and one turn of the RUN loop -/

theorem hostStep_of_next {s t : State} (h : step s = .next t) : hostStep s = (t, stepOutcome s) := by
  simp [hostStep, h]

theorem hostStep_of_fault {s t : State} {addr n : Nat} (h : step s = .fault (.outOfRange addr n t)) :
    hostStep s = (t, .fault (.outOfRange addr n)) := by
  simp [hostStep, h]

theorem runIteration_of_fault {s t : State} {addr n : Nat} (h : step s = .fault (.outOfRange addr n t)) :
    runIteration s = containFault (.outOfRange addr n) t := by
  simp [runIteration, hostStep_of_fault h]

/-- The outcome of an executed instruction is not a fault and not an unknown opcode. -/
theorem instrOutcome_cases (i : Instr) : instrOutcome i = .completed ∨ (instrOutcome i = .halted ∧ i = .halt) := by
  cases i <;> simp [instrOutcome]

/-- A turn of the loop whose step does not fault counts the step. -/
theorem runIteration_of_next {s t : State} (h : step s = .next t) : runIteration s = t.countStep := by
  simp only [runIteration, hostStep_of_next h]
  rcases step_cases s with ⟨i, -, ho, -⟩ | ⟨-, ho, -⟩ | ⟨hf, -⟩ | ⟨o, k, n, hf, -⟩
  · rcases instrOutcome_cases i with e | ⟨e, -⟩ <;> simp [ho, e]
  · simp [ho]
  · simp [h] at hf
  · simp [h] at hf

theorem runLoop_of_stopped {m : Nat} {s : State} (h : runGoesOn m s = false) (k : Nat) : runLoop m k s = s := by
  cases k <;> simp [runLoop, h]

theorem runLoop_succ_of_goesOn {m k : Nat} {s : State} (h : runGoesOn m s = true) :
    runLoop m (k + 1) s = runLoop m k (runIteration s) := by
  simp [runLoop, h]

/-- What holds at the start of the loop, and is kept by every turn that the condition lets run, holds at its end. -/
theorem runLoop_induct {m : Nat} {P : State → Prop} (hP : ∀ s, P s → runGoesOn m s = true → P (runIteration s))
    (k : Nat) {s : State} (h : P s) : P (runLoop m k s) := by
  induction k generalizing s with
  | zero => exact h
  | succ k ih =>
    cases hg : runGoesOn m s with
    | false => rw [runLoop_of_stopped hg]; exact h
    | true => rw [runLoop_succ_of_goesOn hg]; exact ih (hP s h hg)

end Sys2Proof.Machine
end

