-- ==== Sys2Proof/Tests/Slice0.lean ====
section
/-!
SUPPORT. Small tests. Each expected value comes from the spec: a vector V<n> or program P<n> of 95_test_vectors.md, an
example in a rule, or a word written out from 30_encoding.md R61. Then one witness for each clause of each statement
that has hypotheses.
-/
namespace Sys2Proof.Tests
open Sys2Proof.Machine

/-- Registers set one by one from the reset values. -/
def regsOf (rs : List (Fin 8 × Word)) : Vector Word 8 :=
  rs.foldl (fun v r => v.set r.1 r.2) (Vector.replicate 8 0#32)

/-- A machine of `n` bytes of memory with bytes placed at `a`, IP there, and some registers set. -/
def placed (n a : Nat) (bs : List Byte) (rs : List (Fin 8 × Word)) : State :=
  { State.reset with memSize := n, mem := Memory.writeBytes [] a bs, ip := a, regs := regsOf rs }

/-- A field of the state after a step. -/
def after {α : Type} (s : State) (f : State → α) : Option α :=
  match step s with
  | .next t => some (f t)
  | .fault _ => none
  | .refused _ => none

/-- The fault of a step, and a field of the state it leaves. -/
def faulted {α : Type} (s : State) (f : State → α) : Option (Nat × Nat × α) :=
  match step s with
  | .next _ => none
  | .fault (.outOfRange addr n t) => some (addr, n, f t)
  | .refused _ => none

/-! ## Ill-formed terms are refused; every instruction is well formed -/

theorem test_illFormed_memSize : ¬ Config.WellFormed { memSize := 0, memInit := [] } := by decide
theorem test_illFormed_order : ¬ Config.WellFormed { memSize := 9, memInit := [(2, 1), (1, 1)] } := by decide
theorem test_illFormed_unlisted : ¬ Config.WellFormed { memSize := 9, memInit := [(2, 0)] } := by decide
theorem test_illFormed_outside : ¬ Config.WellFormed { memSize := 9, memInit := [(9, 1)] } := by decide
theorem test_wellFormed_config : Config.WellFormed { memSize := 9, memInit := [(1, 3), (8, 1)] } := by decide
theorem test_wellFormed_instr : (Instr.jz 0xFF 0xFFFFFFFF).WellFormed = true := by decide

/-! ## Words written out bit by bit (30_encoding.md R61, R63) -/

theorem test_decode_nop : decode [0b00000000#8] = .ok .nop [] := by decide
theorem test_decode_halt : decode [0b00000001#8, 0x77#8] = .ok .halt [0x77#8] := by decide
theorem test_decode_loadRegImm :
    decode [0b00010000#8, 0b00001010#8, 0b00010010#8, 0b00110100#8, 0b01010110#8, 0b01111000#8]
      = .ok (.loadRegImm 0x0A 0x12345678) [] := by decide
theorem test_decode_movRegReg : decode [0b00010001#8, 0b00000011#8, 0b11111001#8] = .ok (.movRegReg 3 0xF9) [] := by
  decide
theorem test_decode_addRegReg : decode [0b00100000#8, 0b00000000#8, 0b00000010#8] = .ok (.addRegReg 0 2) [] := by decide
theorem test_decode_subRegReg : decode [0b00100001#8, 0b00000011#8, 0b00000001#8] = .ok (.subRegReg 3 1) [] := by decide
theorem test_decode_jmp :
    decode [0b00110000#8, 0b00000000#8, 0b00000001#8, 0b00000000#8, 0b00001011#8] = .ok (.jmp 0x0001000B) [] := by decide
theorem test_decode_jz :
    decode [0b00110001#8, 0b00000011#8, 0b00000000#8, 0b00000000#8, 0b00000000#8, 0b00101000#8] = .ok (.jz 3 40) [] := by
  decide
theorem test_decode_printReg : decode [0b01000000#8, 0b00001000#8] = .ok (.printReg 8) [] := by decide
theorem test_decode_debugState : decode [0b11110000#8] = .ok .debugState [] := by decide
/-- R63: 0x12 is not a move (V7). -/
theorem test_decode_unknown : decode [0x12#8, 0#8, 1#8] = .unknownOpcode 0x12 [0#8, 1#8] := by decide
theorem test_decode_truncated : decode [0x30#8, 0#8, 0#8, 0#8] = .truncated := by decide
/-- The opcode table numbers byte k as bits 8k + 7 .. 8k: `10 01 00 00 00 0A` as one number. -/
theorem test_tableWord : decodeTableWord 48 0x0A0000000110 = some (.loadRegImm 1 10) := by decide
theorem test_tableWord_short : decodeTableWord 8 0x31 = some (.jz 0 0) := by decide

/-! ## Steps -/

/-- V1. -/
theorem test_nop : after (placed 65536 7 [0x00] []) (fun t => (t.ip, t.opCount, t.running)) = some (8, 1, false) := by
  decide
/-- V2: the last byte; the next step faults. -/
theorem test_nop_end : after (placed 65536 65535 [0x00] []) (fun t => (t.ip, faulted t State.opCount))
    = some (65536, some (65536, 1, 1)) := by decide
/-- V3. -/
theorem test_halt :
    after { placed 65536 40 [0x01] [] with running := true } (fun t => (t.ip, t.opCount, t.running)) = some (41, 1, false)
    ∧ (hostStep (placed 65536 40 [0x01] [])).2 = .halted := by decide
/-- V7: bytes 1 and 2 are not fetched. -/
theorem test_unknown : after (placed 65536 0 [0x12, 0x00, 0x01] []) (fun t => (t.ip, t.running, t.out))
    = some (1, false, [.unknownOpcodeDiag 0x12 0]) := by decide
/-- V5. -/
theorem test_unknown_ff : after (placed 65536 100 [0xFF] []) (fun t => (t.ip, t.opCount, t.out))
    = some (101, 1, [.unknownOpcodeDiag 0xFF 100]) := by decide
/-- V11: selector 0x0A is r2. -/
theorem test_loadRegImm : after (placed 65536 0 [0x10, 0x0A, 0xFF, 0xFF, 0xFF, 0xFF] []) (fun t => (t.reg 2, t.ip))
    = some (4294967295#32, 6) := by decide
/-- V13: the immediate does not fit. -/
theorem test_loadRegImm_fault : faulted (placed 65536 65531 [0x10, 0x03, 1, 1, 1] []) (fun t => (t.ip, t.opCount, t.reg 3))
    = some (65533, 4, 65533, 1, 0#32) := by decide
/-- V18: selector 0xF9 is r1. -/
theorem test_movRegReg : after (placed 65536 0 [0x11, 0x00, 0xF9] [(1, 44)]) (fun t => (t.reg 0, t.reg 1, t.ip))
    = some (44#32, 44#32, 3) := by decide
/-- V19. -/
theorem test_movRegReg_fault : faulted (placed 65536 65534 [0x11, 0x02] []) (fun t => (t.ip, t.opCount, t.reg 2))
    = some (65536, 1, 65536, 1, 0#32) := by decide
/-- V21: the sum wraps. -/
theorem test_addRegReg : after (placed 65536 0 [0x20, 0x01, 0x02] [(1, 4294967295), (2, 1)]) (fun t => (t.reg 1, t.reg 2))
    = some (0#32, 1#32) := by decide
/-- V30: both selectors are r0. -/
theorem test_addRegReg_same : after (placed 65536 0 [0x20, 0x08, 0x10] [(0, 21)]) (fun t => t.reg 0) = some 42#32 := by
  decide
/-- V27: `dst - src`, not the other way round. -/
theorem test_subRegReg : after (placed 65536 0 [0x21, 0x03, 0x01] [(3, 1), (1, 10)]) (fun t => (t.reg 3, t.reg 1))
    = some (4294967287#32, 10#32) := by decide
/-- V29. -/
theorem test_subRegReg_borrow : after (placed 65536 0 [0x21, 0x00, 0x01] [(1, 4294967295)]) (fun t => t.reg 0)
    = some 1#32 := by decide
/-- V32: the target wraps. -/
theorem test_jmp : after (placed 65536 6 [0x30, 0x00, 0x01, 0x00, 0x0B] []) (fun t => (t.ip, t.opCount))
    = some (11, 1) := by decide
/-- V42: MEM_SIZE = 10. -/
theorem test_jmp_small : after (placed 10 0 [0x30, 0x00, 0x00, 0x00, 0x19] []) State.ip = some 5 := by decide
/-- V36 and V38: no signed test. -/
theorem test_jz : after (placed 65536 29 [0x31, 0x03, 0, 0, 0, 0x28] []) State.ip = some 40
    ∧ after (placed 65536 0 [0x31, 0x03, 0, 0, 0, 0x28] [(3, 2147483648)]) State.ip = some 6 := by decide
/-- V40: the operand is fetched although the jump would not be taken. -/
theorem test_jz_fault : faulted (placed 65536 65531 [0x31, 0x01, 0, 0, 0] [(1, 7)]) (fun t => (t.ip, t.opCount))
    = some (65533, 4, 65533, 1) := by decide
/-- V52. -/
theorem test_printReg : after (placed 65536 0 [0x40, 0x08] [(0, 3)]) (fun t => (t.out, t.ip)) = some ([.print 3], 2) := by
  decide
/-- V53: no event. -/
theorem test_printReg_fault : faulted (placed 65536 65535 [0x40] []) (fun t => (t.out, t.opCount))
    = some (65536, 1, [], 1) := by decide
/-- V54. -/
theorem test_debugState : after (placed 65536 22 [0xF0] [(1, 1), (2, 2), (3, 4294967294)]) State.out
    = some [.debug { ip := 23, regs := #v[0, 1, 2, 4294967294, 0, 0, 0, 0] }] := by decide
/-- The host's placing of a word: `10 01 00 00 00 0A` runs as the first instruction after reset. -/
theorem test_withFetchWord : after (State.reset.withFetchWord 48 0x0A0000000110) (fun t => (t.reg 1, t.ip, t.opCount))
    = some (10#32, 6, 1) := by decide

/-! ## Host commands -/

/-- V70. -/
theorem test_load : (hostLoad [0xAA, 0xBB, 0xCC] 65533 State.reset).2 = .ok
    ∧ (hostLoad [0xAA, 0xBB, 0xCC] 65533 State.reset).1.window 65533 3 = [0xAA, 0xBB, 0xCC]
    ∧ (hostLoad [0xAA, 0xBB, 0xCC] 65533 State.reset).1.ip = 65533 := by decide
/-- V71, V72, V73. -/
theorem test_load_fault : hostLoad [0xAA, 0xBB, 0xCC] 65534 State.reset = (State.reset, .loadFault 65534 3)
    ∧ (hostLoad [] 65536 State.reset).1.ip = 65536 ∧ (hostLoad [] 65537 State.reset).2 = .loadFault 65537 0 := by decide
/-- V63. -/
theorem test_run_crash : (hostRun 5 3 (placed 65536 65535 [0x10] [])).2 = ⟨false, 0, 1, .outOfRange⟩
    ∧ (hostRun 5 3 (placed 65536 65535 [0x10] [])).1.out
      = [.crashDiag (.outOfRange 65536 1), .summary 0 1 3] := by decide
/-- P4. -/
theorem test_run_budget : (hostRun 3 0 (placed 65536 0 [0x30, 0, 0, 0, 0] [])).2 = ⟨true, 3, 3, .none⟩ := by decide
/-- P2, its second run: HALT under RUN is counted and ends it with code 1. -/
theorem test_run_halt : (hostRun 100 0 (placed 65536 24 [0x01] [])).2 = ⟨false, 1, 1, .halt⟩
    ∧ (hostRun 100 0 (placed 65536 24 [0x01] [])).1.ip = 25 := by decide
/-- P5: MEM_SIZE = 8, the first two STEPs. -/
theorem test_step_fault : (hostStep (placed 8 5 [0x10, 0x03, 0x01] [])).2 = .fault (.outOfRange 7 4)
    ∧ (hostStep (hostStep (placed 8 5 [0x10, 0x03, 0x01] [])).1).2 = .halted
    ∧ (hostStep (hostStep (placed 8 5 [0x10, 0x03, 0x01] [])).1).1.opCount = 2 := by decide
/-- V74. -/
theorem test_reset : (hostReset (placed 65536 9 [0x40] [(5, 7)])).reg 5 = 0#32
    ∧ (hostReset (placed 65536 9 [0x40] [(5, 7)])).mem.read 9 = 0x40#8 := by decide
/-- V50, V51: the text of Print. -/
theorem test_render_print : render (.print 7) = ['7'] ∧ render (.print 0xFFFFFFFF) = "4294967295".toList := by decide
/-- 44_output.md R162: the offset 23 of P2 in two of the open forms. -/
theorem test_numeral : numeral { radixPick := 8, upper := false, width := 0 } 23 = ['2', '3']
    ∧ numeral { radixPick := 14, upper := true, width := 4 } 0x2AF = ['0', '2', 'A', 'F'] := by decide
/-- 44_output.md R162: what shows half a second, and that no empty text does. -/
theorem test_showsRational :
    ShowsRational ['0', '.', '5'] (Rat.mk' 1 2 (by decide) (by simp))
    ∧ ¬ ShowsRational [] (Rat.mk' 1 2 (by decide) (by simp)) :=
  ⟨⟨[], ['0'], ['5'], ['.', '5'], rfl, .inr ⟨Int.one_nonneg, rfl⟩, by simp [IsDigits], .inr ⟨by simp [IsDigits], rfl⟩,
      show 10 < 6 * 2 by decide, show 5 * 2 < 12 by decide⟩,
    fun ⟨_, _, _, _, h, _, hw, _⟩ => hw.1 (List.append_eq_nil_iff.1 (List.append_eq_nil_iff.1 h.symm).1).2⟩
/-- 00_scope.md R6: 17 bits for 65536. -/
theorem test_ipWidth : Config.ipWidth 65536 = 17 := by decide

/-! ## Witnesses: states and operands that meet the hypotheses of each statement, clause by clause -/

theorem witness_EncodeOfDecode : decode [0x40#8, 8#8, 9#8] = .ok (.printReg 8) [9#8] := by decide
theorem witness_UnknownOpcodesRefused : Opcode.ofByte 0x02#8 = none := by decide
theorem witness_SelectorsAlias : (0xFB#8).extractLsb' 0 3 = (0x03#8).extractLsb' 0 3 := by decide
theorem witness_RegisterWritesFrame_load :
    ∃ (imm : Word) (s t : State), exec (.loadRegImm 1 imm) s = .next t := ⟨5, State.reset, _, rfl⟩
theorem witness_RegisterWritesFrame_rr : ∃ (r : Byte) (s t u v : State), exec (.movRegReg 1 r) s = .next t
    ∧ exec (.addRegReg 1 r) s = .next u ∧ exec (.subRegReg 1 r) s = .next v :=
  ⟨2, placed 65536 0 [] [(2, 5)], _, _, _, rfl, rfl, rfl⟩

/-- The last byte of memory is a whole instruction. -/
theorem witness_StepRunsDecoded : decode (placed 65536 65535 [0x01] []).codeBytes = .ok .halt [] := by decide
theorem witness_StepRunsDecoded_long :
    decode (placed 65536 0 [0x30, 0, 0, 0, 0x0C, 0x40] []).codeBytes = .ok (.jmp 12) [0x40#8] := by decide

theorem witness_fetchInside : ∃ s : State, s.ip < s.memSize ∧ s.mem.read s.ip = 0x00#8 := ⟨State.reset, by decide⟩
theorem witness_fetchOutside : ∃ s : State, s.memSize ≤ s.ip := ⟨placed 65536 65536 [] [], by decide⟩
theorem witness_StepHalt : ∃ s : State, s.ip < s.memSize ∧ s.mem.read s.ip = 0x01#8 :=
  ⟨placed 65536 65535 [0x01] [], by decide⟩
theorem witness_StepDebugState : ∃ s : State, s.ip < s.memSize ∧ s.mem.read s.ip = 0xF0#8 :=
  ⟨placed 65536 65535 [0xF0] [], by decide⟩
/-- StepUnknownOpcode and StepUnknownOpcodeCounted. -/
theorem witness_StepUnknownOpcode :
    ∃ (s : State) (op : Byte), s.ip < s.memSize ∧ s.mem.read s.ip = op ∧ Opcode.ofByte op = none :=
  ⟨placed 65536 65535 [0xF1] [], 0xF1, by decide⟩

theorem witness_StepLoadRegImm_selector :
    ∃ s : State, s.ip < s.memSize ∧ s.mem.read s.ip = 0x10#8 ∧ s.memSize ≤ s.ip + 1 :=
  ⟨placed 65536 65535 [0x10] [], by decide⟩
theorem witness_StepLoadRegImm_immediate :
    ∃ s : State, s.ip < s.memSize ∧ s.mem.read s.ip = 0x10#8 ∧ s.ip + 1 < s.memSize ∧ s.memSize < s.ip + 6 :=
  ⟨placed 65536 65534 [0x10, 3] [], by decide⟩
theorem witness_StepLoadRegImm : ∃ s : State, s.ip < s.memSize ∧ s.mem.read s.ip = 0x10#8 ∧ s.ip + 6 ≤ s.memSize :=
  ⟨placed 65536 65530 [0x10, 3, 1, 2, 3, 4] [], by decide⟩
theorem witness_StepMovRegReg_dst :
    ∃ s : State, s.ip < s.memSize ∧ s.mem.read s.ip = 0x11#8 ∧ s.memSize ≤ s.ip + 1 :=
  ⟨placed 65536 65535 [0x11] [], by decide⟩
theorem witness_StepMovRegReg_src :
    ∃ s : State, s.ip < s.memSize ∧ s.mem.read s.ip = 0x11#8 ∧ s.memSize = s.ip + 2 :=
  ⟨placed 65536 65534 [0x11, 3] [], by decide⟩
/-- With both selectors naming r3. -/
theorem witness_StepMovRegReg : ∃ s : State, s.ip < s.memSize ∧ s.mem.read s.ip = 0x11#8 ∧ s.ip + 3 ≤ s.memSize :=
  ⟨placed 65536 65533 [0x11, 0x0B, 3] [(3, 9)], by decide⟩
theorem witness_StepAddRegReg_dst :
    ∃ s : State, s.ip < s.memSize ∧ s.mem.read s.ip = 0x20#8 ∧ s.memSize ≤ s.ip + 1 :=
  ⟨placed 65536 65535 [0x20] [], by decide⟩
theorem witness_StepAddRegReg_src :
    ∃ s : State, s.ip < s.memSize ∧ s.mem.read s.ip = 0x20#8 ∧ s.memSize = s.ip + 2 :=
  ⟨placed 65536 65534 [0x20, 3] [], by decide⟩
theorem witness_StepAddRegReg : ∃ s : State, s.ip < s.memSize ∧ s.mem.read s.ip = 0x20#8 ∧ s.ip + 3 ≤ s.memSize :=
  ⟨placed 65536 65533 [0x20, 1, 2] [(1, 4294967295), (2, 1)], by decide⟩
theorem witness_StepSubRegReg_dst :
    ∃ s : State, s.ip < s.memSize ∧ s.mem.read s.ip = 0x21#8 ∧ s.memSize ≤ s.ip + 1 :=
  ⟨placed 65536 65535 [0x21] [], by decide⟩
theorem witness_StepSubRegReg_src :
    ∃ s : State, s.ip < s.memSize ∧ s.mem.read s.ip = 0x21#8 ∧ s.memSize = s.ip + 2 :=
  ⟨placed 65536 65534 [0x21, 3] [], by decide⟩
theorem witness_StepSubRegReg : ∃ s : State, s.ip < s.memSize ∧ s.mem.read s.ip = 0x21#8 ∧ s.ip + 3 ≤ s.memSize :=
  ⟨placed 65536 65533 [0x21, 3, 1] [(1, 10)], by decide⟩
theorem witness_StepJmp_address :
    ∃ s : State, s.ip < s.memSize ∧ s.mem.read s.ip = 0x30#8 ∧ s.memSize < s.ip + 5 :=
  ⟨placed 65536 65532 [0x30, 0, 0, 0] [], by decide⟩
theorem witness_StepJmp : ∃ s : State, s.ip < s.memSize ∧ s.mem.read s.ip = 0x30#8 ∧ s.ip + 5 ≤ s.memSize :=
  ⟨placed 65536 65531 [0x30, 0, 1, 0, 0x0B] [], by decide⟩
theorem witness_StepJz_selector :
    ∃ s : State, s.ip < s.memSize ∧ s.mem.read s.ip = 0x31#8 ∧ s.memSize ≤ s.ip + 1 :=
  ⟨placed 65536 65535 [0x31] [], by decide⟩
theorem witness_StepJz_address :
    ∃ s : State, s.ip < s.memSize ∧ s.mem.read s.ip = 0x31#8 ∧ s.ip + 1 < s.memSize ∧ s.memSize < s.ip + 6 :=
  ⟨placed 65536 65531 [0x31, 1, 0, 0, 0] [(1, 7)], by decide⟩
theorem witness_StepJz_taken : ∃ s : State, s.ip < s.memSize ∧ s.mem.read s.ip = 0x31#8 ∧ s.ip + 6 ≤ s.memSize
    ∧ (s.reg (regSel (s.mem.read (s.ip + 1)))).toNat = 0 :=
  ⟨placed 65536 65530 [0x31, 3, 0, 2, 0, 5] [], by decide⟩
theorem witness_StepJz_notTaken : ∃ s : State, s.ip < s.memSize ∧ s.mem.read s.ip = 0x31#8 ∧ s.ip + 6 ≤ s.memSize
    ∧ (s.reg (regSel (s.mem.read (s.ip + 1)))).toNat ≠ 0 :=
  ⟨placed 65536 65530 [0x31, 3, 0, 0, 0, 5] [(3, 2147483648)], by decide⟩
theorem witness_StepPrintReg_selector :
    ∃ s : State, s.ip < s.memSize ∧ s.mem.read s.ip = 0x40#8 ∧ s.memSize ≤ s.ip + 1 :=
  ⟨placed 65536 65535 [0x40] [], by decide⟩
theorem witness_StepPrintReg : ∃ s : State, s.ip < s.memSize ∧ s.mem.read s.ip = 0x40#8 ∧ s.ip + 2 ≤ s.memSize :=
  ⟨placed 65536 65534 [0x40, 8] [(0, 3)], by decide⟩

/-- FaultLeavesFetchState, FaultKeepsInvariant, StepCommandReturnsFault and RunContainsFault: a fault at an operand
fetch, in a state that meets the invariant. -/
theorem witness_operandFault :
    ∃ (s t : State) (addr n : Nat), s.Inv ∧ step s = .fault (.outOfRange addr n t) ∧ addr = s.ip + 2 :=
  ⟨placed 8 5 [0x10, 3, 1] [], _, 7, 4, by decide, rfl, rfl⟩
/-- The same with a fault at the opcode fetch. -/
theorem witness_opcodeFault :
    ∃ (s t : State) (addr n : Nat), s.Inv ∧ step s = .fault (.outOfRange addr n t) ∧ addr = s.ip :=
  ⟨placed 8 8 [] [], _, 8, 1, by decide, rfl, rfl⟩
/-- StepFaultsExactly: the operands do not fit. -/
theorem witness_StepFaultsExactly : ∃ (s : State) (o : Opcode), s.ip < s.memSize
    ∧ Opcode.ofByte (s.mem.read s.ip) = some o ∧ s.memSize < s.ip + o.length :=
  ⟨placed 8 5 [0x10, 3, 1] [], .loadRegImm, by decide⟩
/-- An instruction that ends at the last byte: IP becomes MEM_SIZE, not 0. -/
theorem witness_SequentialFaultsJumpsWrap_fetch : ∃ (s u : State) (i : Instr),
    1 ≤ s.memSize ∧ fetchInstr s = .got (.instr i) u ∧ s.ip + i.length = s.memSize :=
  ⟨placed 65536 65533 [0x11, 3, 1] [], _, _, by decide, rfl, by decide⟩
/-- The same for a JZ that is not taken. -/
theorem witness_SequentialFaultsJumpsWrap_sequential : ∃ (s : State) (o : Opcode), 1 ≤ s.memSize ∧ s.ip < s.memSize
    ∧ Opcode.ofByte (s.mem.read s.ip) = some o ∧ s.ip + o.length ≤ s.memSize ∧ o ≠ .jmp
    ∧ (o = .jz → s.reg (regSel (s.mem.read (s.ip + 1))) ≠ 0#32) ∧ s.ip + o.length = s.memSize :=
  ⟨placed 65536 65530 [0x31, 1, 0, 0, 0, 0] [(1, 7)], .jz, by decide⟩
theorem witness_SequentialFaultsJumpsWrap_unknown :
    ∃ s : State, 1 ≤ s.memSize ∧ s.ip < s.memSize ∧ Opcode.ofByte (s.mem.read s.ip) = none ∧ s.ip + 1 = s.memSize :=
  ⟨placed 65536 65535 [0xEE] [], by decide⟩
theorem witness_SequentialFaultsJumpsWrap_cut : ∃ (s : State) (o : Opcode), 1 ≤ s.memSize ∧ s.ip < s.memSize
    ∧ Opcode.ofByte (s.mem.read s.ip) = some o ∧ s.memSize < s.ip + o.length :=
  ⟨placed 65536 65534 [0x11, 3] [], .movRegReg, by decide⟩
theorem witness_SequentialFaultsJumpsWrap_end : ∃ s : State, 1 ≤ s.memSize ∧ s.ip = s.memSize :=
  ⟨placed 65536 65536 [] [], by decide⟩
theorem witness_SequentialFaultsJumpsWrap_jmp :
    ∃ (s t : State) (addr : Word), 1 ≤ s.memSize ∧ exec (.jmp addr) s = .next t :=
  ⟨placed 10 0 [] [], _, 25, by decide, rfl⟩
theorem witness_SequentialFaultsJumpsWrap_jz :
    ∃ (s t : State) (r : Byte) (addr : Word), 1 ≤ s.memSize ∧ s.reg (regSel r) = 0#32 ∧ exec (.jz r addr) s = .next t :=
  ⟨placed 10 0 [] [], _, 3, 25, by decide, by decide, rfl⟩
/-- StepKeepsInvariant, OnlyLoadWritesMemory, StepCountsOneOpcode, StepWritesAtMostOne and StepCommandReturnsFault: a
step to a next state, from a state that meets the invariant. -/
theorem witness_nextStep : ∃ s t : State, s.Inv ∧ step s = .next t :=
  ⟨placed 65536 65530 [0x31, 3, 0, 2, 0, 5] [], _, by decide, rfl⟩
/-- CommandsKeepInvariant. -/
theorem witness_Inv : State.reset.Inv := by decide
/-- SessionsMeetInvariant. -/
theorem witness_Config : Config.WellFormed { memSize := 9, memInit := [(8, 1)] } := by decide
/-- OnlyLoadWritesMemory: a command other than LOAD. -/
theorem witness_otherCommand : ∃ c : Command, (∀ bs a, c ≠ .load bs a) ∧ ∀ bs, c ≠ .loadDefault bs :=
  ⟨.run 3 3, by simp, by simp⟩
theorem witness_RunningClearedOnlyByStops : ∃ s t : State, step s = .next t ∧ t.running ≠ s.running :=
  ⟨{ placed 65536 0 [0x01] [] with running := true }, _, rfl, by decide⟩
theorem witness_StepIgnoresHostState_next :
    ∃ s s' t : State, s.SameProgramView s' ∧ s ≠ s' ∧ step s = .next t :=
  ⟨placed 65536 0 [0x40, 0] [], { placed 65536 0 [0x40, 0] [] with running := true, opCount := 7, out := [.print 1] }, _,
    by decide, by decide, rfl⟩
theorem witness_StepIgnoresHostState_fault : ∃ (s s' t : State) (addr n : Nat),
    s.SameProgramView s' ∧ s ≠ s' ∧ step s = .fault (.outOfRange addr n t) :=
  ⟨placed 8 5 [0x10, 3, 1] [], { placed 8 5 [0x10, 3, 1] [] with stepCount := 7 }, _, 7, 4, by decide, by decide, rfl⟩

theorem witness_LoadCopiesBytes : ∃ (c : Command) (bytes : List Byte) (address : Nat) (s : State),
    c = .load bytes address ∧ s.mem.wf ∧ address + bytes.length = s.memSize ∧ 0 < bytes.length :=
  ⟨.load [0xAA, 0x00, 0xCC] 65533, [0xAA, 0x00, 0xCC], 65533, placed 65536 65534 [9] [], by decide⟩
theorem witness_LoadCopiesBytes_default : ∃ (c : Command) (bytes : List Byte) (address : Nat) (s : State),
    (c = .loadDefault bytes ∧ address = 0) ∧ s.mem.wf ∧ address + bytes.length = s.memSize ∧ 0 < bytes.length :=
  ⟨.loadDefault [0xAA, 0x00, 0xCC], [0xAA, 0x00, 0xCC], 0, placed 3 1 [9] [], by decide⟩
theorem witness_LoadFaultChangesNothing : ∃ (c : Command) (bytes : List Byte) (address : Nat) (s : State),
    c = .load bytes address ∧ s.memSize < address + bytes.length :=
  ⟨.load [0xAA, 0xBB, 0xCC] 65534, [0xAA, 0xBB, 0xCC], 65534, State.reset, by decide⟩
theorem witness_LoadFaultChangesNothing_default : ∃ (c : Command) (bytes : List Byte) (address : Nat) (s : State),
    (c = .loadDefault bytes ∧ address = 0) ∧ s.memSize < address + bytes.length :=
  ⟨.loadDefault [0xAA, 0xBB, 0xCC], [0xAA, 0xBB, 0xCC], 0, placed 2 0 [] [], by decide⟩
theorem witness_RunLoopIsWhile : ∃ (m : Nat) (s u : State), runGoesOn m s = true ∧ runGoesOn m u = false :=
  ⟨3, runBegin State.reset, State.reset, by decide⟩
/-- RunWithinBudget: a run stopped by its budget (P4). -/
theorem witness_budgetStop :
    ∃ (m : Nat) (e : Elapsed) (s : State), 0 < m ∧ (hostRun m e s).2.running = true :=
  ⟨3, 3, placed 65536 0 [0x30, 0, 0, 0, 0] [], by decide⟩
/-- RunResumesAfterBudget: the first run is stopped by its budget, the second by a HALT, and both print. -/
theorem witness_RunResumesAfterBudget : ∃ (m n : Nat) (e e' : Elapsed) (s t t₁ t₂ : State) (r r₁ r₂ : RunResult),
    hostRun m e s = (t, r) ∧ r.running = true ∧ hostRun n e' t = (t₁, r₁) ∧ hostRun (m + n) e' s = (t₂, r₂)
    ∧ r₁.code = .halt :=
  ⟨1, 5, 3, 4, placed 8 0 [0x40, 0, 0x40, 1, 0x01] [(0, 7)], _, _, _, _, _, _, rfl, by decide, rfl, rfl, by decide⟩
/-- RunStopCodes: each code. -/
theorem witness_RunStopCodes :
    (hostRun 2 0 (placed 8 0 [0x30, 0, 0, 0, 0] [])).2.code = .none
    ∧ (hostRun 2 0 (placed 8 0 [0x01] [])).2.code = .halt
    ∧ (hostRun 2 0 (placed 8 0 [0xEE] [])).2.code = .unknownOpcode
    ∧ (hostRun 2 0 (placed 8 7 [0x30] [])).2.code = .outOfRange := by decide
/-- ResumeAfterStop: each outcome. -/
theorem witness_ResumeAfterStop :
    (hostStep (placed 8 7 [0x01] [])).2 = .halted
    ∧ (hostStep (placed 8 7 [0xEE] [])).2 = .unknownOpcode 0xEE 7
    ∧ (hostStep (placed 8 7 [0x30] [])).2 = .fault (.outOfRange 8 4)
    ∧ (placed 8 8 [] []).memSize ≤ (placed 8 8 [] []).ip := by decide
/-- PrintRendersDecimal: the leading digit is 0 only for 0. -/
theorem witness_PrintRendersDecimal : (render (.print 0#32)).head? = some '0' := by decide
/-- DiagnosticLinesTellFields: equal lines, in both clauses. -/
theorem witness_DiagnosticLinesTellFields :
    render (.unknownOpcodeDiag 0xEE 23) = render (.unknownOpcodeDiag 0xEE 23)
    ∧ render (.summary 8 8 (1 / 2)) = render (.summary 8 8 (1 / 2)) := ⟨rfl, rfl⟩

end Sys2Proof.Tests
end

section
/-! Sequential advance and jump targets (10_state.md R25). -/
namespace Sys2Proof.Machine

/-! ## The fetch and the step at a known opcode byte -/

/-- A fetched instruction leaves the state whose IP has passed it. -/
theorem fetchInstr_got_instr {s u : State} {i : Instr} (h : fetchInstr s = .got (.instr i) u) :
    u = s.afterFetch i.length := by
  rcases fetchInstr_cases s with ⟨j, hf, -⟩ | ⟨hf, -⟩ | ⟨hf, -⟩ | ⟨o, k, n, hf, -⟩
  · rw [hf] at h; cases h; rfl
  · simp [hf] at h
  · simp [hf] at h
  · simp [hf] at h

/-- An instruction that fits in memory runs in the state past it. -/
theorem step_of_fits {s : State} {o : Opcode} (h : s.ip < s.memSize) (ho : Opcode.ofByte (s.mem.read s.ip) = some o)
    (hfit : s.ip + o.length ≤ s.memSize) : ∃ i : Instr, i.opcode = o ∧ step s = exec i (s.afterFetch o.length) := by
  rcases fetchOperands_cases o s h with ⟨i, hf, hi, -⟩ | ⟨k, n, -, hr⟩
  · exact ⟨i, hi, step_of_instr ((fetchInstr_operands h ho).trans hf)⟩
  · omega

/-- A JZ that fits in memory runs with the selector byte and the operand that follow its opcode. -/
theorem step_of_jz_fits {s : State} (h : s.ip + 6 ≤ s.memSize) (ho : Opcode.ofByte (s.mem.read s.ip) = some .jz) :
    step s = exec (.jz (s.mem.read (s.ip + 1)) (s.mem.readWord (s.ip + 2))) (s.afterFetch 6) := by
  apply step_of_instr
  rw [fetchInstr_operands (by omega) ho, fetchOperands, fetchRegWord_afterFetch, if_neg (by omega), if_neg (by omega)]

/-- An instruction that memory cuts short faults. -/
theorem step_of_cut {s : State} {o : Opcode} (h : s.ip < s.memSize) (ho : Opcode.ofByte (s.mem.read s.ip) = some o)
    (hcut : s.memSize < s.ip + o.length) : ∃ addr n t, step s = .fault (.outOfRange addr n t) := by
  rcases fetchOperands_cases o s h with ⟨i, -, -, hfit⟩ | ⟨k, n, hf, -⟩
  · omega
  · exact ⟨_, _, _, step_of_outOfRange ((fetchInstr_operands h ho).trans hf)⟩

/-! ## Which meanings write IP -/

/-- Only JMP and JZ write IP. -/
theorem exec_keeps_ip {i : Instr} (s : State) (hjmp : i.opcode ≠ .jmp) (hjz : i.opcode ≠ .jz) :
    ∃ t, exec i s = .next t ∧ t.ip = s.ip := by
  cases i with
  | nop => exact ⟨_, exec_nop s, rfl⟩
  | halt => exact ⟨_, exec_halt s, rfl⟩
  | loadRegImm r w => exact ⟨_, exec_loadRegImm r w s, rfl⟩
  | movRegReg d r => exact ⟨_, exec_movRegReg d r s, rfl⟩
  | addRegReg d r => exact ⟨_, exec_addRegReg d r s, rfl⟩
  | subRegReg d r => exact ⟨_, exec_subRegReg d r s, rfl⟩
  | jmp addr => exact absurd rfl hjmp
  | jz r addr => exact absurd rfl hjz
  | printReg r => exact ⟨_, exec_printReg r s, rfl⟩
  | debugState => exact ⟨_, exec_debugState s, rfl⟩

theorem exec_jz_taken {r : Byte} {s : State} (addr : Word) (h : s.reg (regSel r) = 0#32) :
    exec (.jz r addr) s = .next (s.setIp (addr.toNat % s.memSize)) := by
  rw [exec_jz, if_pos h]

theorem exec_jz_not_taken {r : Byte} {s : State} (addr : Word) (h : s.reg (regSel r) ≠ 0#32) :
    exec (.jz r addr) s = .next s := by
  rw [exec_jz, if_neg h]

/-! ## R25 -/

/-- A step that is neither JMP nor a taken JZ ends at the address after the instruction, without a reduction. -/
theorem step_sequential_ip {s : State} {o : Opcode} (h : s.ip < s.memSize)
    (ho : Opcode.ofByte (s.mem.read s.ip) = some o) (hfit : s.ip + o.length ≤ s.memSize) (hjmp : o ≠ .jmp)
    (hjz : o = .jz → s.reg (regSel (s.mem.read (s.ip + 1))) ≠ 0#32) :
    ∃ t, step s = .next t ∧ t.ip = s.ip + o.length := by
  by_cases hz : o = .jz
  · subst hz
    exact ⟨_, (step_of_jz_fits hfit ho).trans (exec_jz_not_taken _ (hjz rfl)), rfl⟩
  · obtain ⟨i, rfl, hs⟩ := step_of_fits h ho hfit
    rw [hs]
    exact exec_keeps_ip (s.afterFetch i.opcode.length) hjmp hz

/-- A jump lands at its address modulo MEM_SIZE, in range. -/
theorem setIp_mod_memSize_in_range {s t : State} {addr : Word} (hpos : 1 ≤ s.memSize)
    (h : (.next (s.setIp (addr.toNat % s.memSize)) : Result) = .next t) :
    t.ip = addr.toNat % s.memSize ∧ t.ip < s.memSize := by
  cases h
  exact ⟨rfl, Nat.mod_lt _ hpos⟩

/-- Settles O29: the fetch decides where a sequential step ends and where it faults; only the jumps reduce IP. -/
theorem sequentialFaultsJumpsWrap : Obligations.SequentialFaultsJumpsWrap := by
  intro s hpos
  refine ⟨?fetched, ?sequential, ?unknown, ?cut, ?atEnd, ?jmp, ?jz⟩
  case fetched => intro i u h; rw [fetchInstr_got_instr h]; rfl
  case sequential => intro o h ho hfit hjmp hjz; exact step_sequential_ip h ho hfit hjmp hjz
  case unknown => intro h ho; exact ⟨_, step_of_unknown (fetchInstr_unknown h ho), rfl⟩
  case cut => intro o h ho hcut; exact step_of_cut h ho hcut
  case atEnd => intro h; exact ⟨s, h ▸ step_of_outOfRange (fetchInstr_of_ge (Nat.le_of_eq h.symm))⟩
  case jmp => intro addr t h; exact setIp_mod_memSize_in_range hpos (exec_jmp addr s ▸ h)
  case jz => intro r addr t hr h; exact setIp_mod_memSize_in_range hpos (exec_jz_taken addr hr ▸ h)

end Sys2Proof.Machine
end

section
/-! The opcode byte (30_encoding.md R63). -/
namespace Sys2Proof

theorem Opcode.mem_all (o : Opcode) : o ∈ Opcode.all := by cases o <;> decide

/-- The rows of the opcode table are the pairs of an operation's byte and the operation. -/
theorem Opcode.mem_byteTable {b : Byte} {o : Opcode} :
    (b, o) ∈ Opcode.all.map (fun o => (o.byte, o)) ↔ b = o.byte := by
  rw [List.mem_map]
  constructor
  · rintro ⟨p, -, hp⟩
    obtain ⟨rfl, rfl⟩ := Prod.mk.inj hp
    rfl
  · rintro rfl
    exact ⟨o, Opcode.mem_all o, rfl⟩

/-- An encoding begins with the opcode byte. -/
theorem encode_head? (i : Instr) : (encode i).head? = some i.opcode.byte := by cases i <;> rfl

/-- An encoding is as long as the opcode says (30_encoding.md R66). -/
theorem length_encode (i : Instr) : (encode i).length = i.length := by cases i <;> rfl

/-- Settles O3: the table of R63 is `Opcode.byte` over `Opcode.all`, and `Opcode.ofByte` inverts `Opcode.byte`. -/
theorem opcodeMap : Obligations.OpcodeMap := by
  refine ⟨fun b o => ?_, fun i => ⟨?_, encode_head? i, (length_encode i).trans ?_⟩⟩
  · exact Opcode.ofByte_eq_some.trans Opcode.mem_byteTable.symm
  · cases i <;> rfl
  · cases i <;> rfl

end Sys2Proof
end

section
/-! Register selectors (30_encoding.md R64). -/
namespace Sys2Proof.Machine

/-- Settles O6: a meaning reads its selectors only through `regSel`, which the low three bits decide. -/
theorem selectorsAlias : Obligations.SelectorsAlias := by
  refine ⟨regSel_val, fun r r' d d' hlow hlow' w s => ?_⟩
  have hr : regSel r = regSel r' := regSel_congr hlow
  have hd : regSel d = regSel d' := regSel_congr hlow'
  refine ⟨?load, ?mov, ?add, ?sub, ?jz, ?print⟩
  case load => rw [exec_loadRegImm, exec_loadRegImm, hr]
  case mov => rw [exec_movRegReg, exec_movRegReg, hd, hr]
  case add => rw [exec_addRegReg, exec_addRegReg, hd, hr]
  case sub => rw [exec_subRegReg, exec_subRegReg, hd, hr]
  case jz => rw [exec_jz, exec_jz, hr]
  case print => rw [exec_printReg, exec_printReg, hr]

end Sys2Proof.Machine
end

section
/-! NOP, HALT and the unknown-opcode stop, as whole steps (40_control.md R85, R88, R92). -/
namespace Sys2Proof.Machine

/-! ## The fetch at a known opcode byte, and the fault of the opcode fetch -/

/-- The opcode byte of an operation at IP leaves the operand fetches of that operation. -/
theorem fetchInstr_of_byte {s : State} {o : Opcode} (h : s.ip < s.memSize) (hb : s.mem.read s.ip = o.byte) :
    fetchInstr s = fetchOperands o (s.afterFetch 1) :=
  fetchInstr_operands h (Opcode.ofByte_eq_some.2 hb)

theorem step_of_ge {s : State} (h : s.memSize ≤ s.ip) : step s = .fault (.outOfRange s.ip 1 s) :=
  step_of_outOfRange (fetchInstr_of_ge h)

/-! ## STEP after a fetch that succeeds -/

/-- STEP answers the outcome of the fetched instruction. -/
theorem hostStep_of_instr {s t u : State} {i : Instr} (hf : fetchInstr s = .got (.instr i) t)
    (he : exec i t = .next u) : hostStep s = (u, instrOutcome i) := by
  rw [hostStep_of_next ((step_of_instr hf).trans he), stepOutcome, hf]

/-- STEP answers an unknown opcode by its name and its own address. -/
theorem hostStep_of_unknown {s t : State} {op : Byte} (hf : fetchInstr s = .got (.unknown op) t) :
    hostStep s = (takeUnknownOpcode op s.ip t, .unknownOpcode op s.ip) := by
  rw [hostStep_of_next (step_of_unknown hf), stepOutcome, hf]

/-! ## RUN after a stop -/

/-- A cleared `running` ends the loop, whatever the budget (60_exceptions.md R189). -/
theorem runLoop_of_not_running {s : State} (h : s.running = false) (m k : Nat) : runLoop m k s = s :=
  runLoop_of_stopped (by simp [runGoesOn, h]) k

/-- A turn whose step clears `running` is the loop's last. -/
theorem runLoop_runIteration_of_next {s t : State} (h : step s = .next t) (hstop : t.running = false) (m k : Nat) :
    runLoop m k (runIteration s) = runIteration s :=
  runLoop_of_not_running (runIteration_of_next h ▸ hstop) m k

/-! ## R85, R88, R92 -/

/-- Settles O14: NOP fetches nothing after its opcode byte and its meaning changes nothing. -/
theorem stepNop : Obligations.StepNop := by
  refine fun s => ⟨fun h hb => ?_, fun h => ⟨s, step_of_ge h⟩⟩
  have hf : fetchInstr s = .got (.instr .nop) (s.afterFetch 1) := fetchInstr_of_byte (o := .nop) h hb
  exact ⟨hostStep_of_instr hf (exec_nop _), (step_of_instr hf).trans (exec_nop _)⟩

/-- Settles O15: HALT stops in the state past its one byte, so its turn is counted and is the loop's last. -/
theorem stepHalt : Obligations.StepHalt := by
  refine fun s => ⟨fun h hb => ?_, fun h => ⟨s, step_of_ge h⟩⟩
  have hf : fetchInstr s = .got (.instr .halt) (s.afterFetch 1) := fetchInstr_of_byte (o := .halt) h hb
  have hs : step s = .next (s.afterFetch 1).stop := (step_of_instr hf).trans (exec_halt _)
  exact ⟨_, hs, hostStep_of_instr hf (exec_halt _), rfl, rfl, runIteration_of_next hs,
    runLoop_runIteration_of_next hs rfl⟩

/-- Settles O16: the stop acts in the state past the opcode byte, and a turn of RUN adds only the step count to it. -/
theorem stepUnknownOpcode : Obligations.StepUnknownOpcode := by
  refine fun s op => ⟨?_, fun h => ⟨s, step_of_ge h⟩⟩
  rintro h rfl hnone
  have hf := fetchInstr_unknown h hnone
  have hs := step_of_unknown hf
  have hrun := runIteration_of_next hs
  exact ⟨_, hs, hostStep_of_unknown hf, rfl, congrArg State.out hrun, congrArg State.running hrun,
    congrArg State.ip hrun, runLoop_runIteration_of_next hs rfl⟩

end Sys2Proof.Machine
end

section
/-! Format RR, and MOV_REG_REG as a whole step (30_encoding.md R61, 41_data_movement.md R105). -/
namespace Sys2Proof.Machine

/-! ## An instruction of format RR at IP, by how much of it memory holds -/

/-- The `dst` selector is outside memory. -/
theorem step_regReg_of_dst_outside {mk : Byte → Byte → Instr} {s : State}
    (hf : fetchInstr s = fetchRegReg mk (s.afterFetch 1)) (h : s.memSize ≤ s.ip + 1) :
    step s = .fault (.outOfRange (s.ip + 1) 1 (s.afterFetch 1)) := by
  rw [fetchRegReg_afterFetch, if_pos h] at hf
  exact step_of_outOfRange hf

/-- Memory ends between the two selectors. -/
theorem step_regReg_of_src_outside {mk : Byte → Byte → Instr} {s : State}
    (hf : fetchInstr s = fetchRegReg mk (s.afterFetch 1)) (h : s.memSize = s.ip + 2) :
    step s = .fault (.outOfRange (s.ip + 2) 1 (s.afterFetch 2)) := by
  rw [fetchRegReg_afterFetch, if_neg (by omega), if_pos (by omega)] at hf
  exact step_of_outOfRange hf

/-- The whole instruction is in memory. -/
theorem fetchInstr_regReg_of_fits {mk : Byte → Byte → Instr} {s : State}
    (hf : fetchInstr s = fetchRegReg mk (s.afterFetch 1)) (h : s.ip + 3 ≤ s.memSize) :
    fetchInstr s = .got (.instr (mk (s.mem.read (s.ip + 1)) (s.mem.read (s.ip + 2)))) (s.afterFetch 3) := by
  rw [hf, fetchRegReg_afterFetch, if_neg (by omega), if_neg (by omega)]

/-! ## R105 -/

/-- Settles O19: the two selector fetches give the faults, and the meaning reads and writes a register past them. -/
theorem stepMovRegReg : Obligations.StepMovRegReg := by
  intro s h hb
  have hf : fetchInstr s = fetchRegReg .movRegReg (s.afterFetch 1) := fetchInstr_of_byte (o := .movRegReg) h hb
  refine ⟨fun hdst => ?dst, fun hsrc => ?src, fun hfit => ?fits⟩
  case dst => exact ⟨_, step_regReg_of_dst_outside hf hdst, rfl⟩
  case src => exact ⟨_, step_regReg_of_src_outside hf hsrc, rfl⟩
  case fits =>
    have hi := fetchInstr_regReg_of_fits hf hfit
    exact ⟨_, (step_of_instr hi).trans (exec_movRegReg _ _ _), hostStep_of_instr hi (exec_movRegReg _ _ _), rfl⟩

end Sys2Proof.Machine
end

section
/-! ADD_REG_REG and SUB_REG_REG as whole steps (42_arithmetic.md R120, R125). -/
namespace Sys2Proof.Machine

/-! ## A step of format RR: its two faults, and its meaning past both selectors -/

/-- A selector outside memory faults at its own fetch, before any register is written. -/
theorem step_regReg_faults {mk : Byte → Byte → Instr} {s : State}
    (hf : fetchInstr s = fetchRegReg mk (s.afterFetch 1)) :
    (s.memSize ≤ s.ip + 1 → ∃ t, step s = .fault (.outOfRange (s.ip + 1) 1 t) ∧ t.regs = s.regs)
    ∧ (s.memSize = s.ip + 2 → ∃ t, step s = .fault (.outOfRange (s.ip + 2) 1 t) ∧ t.regs = s.regs) :=
  ⟨fun hdst => ⟨_, step_regReg_of_dst_outside hf hdst, rfl⟩, fun hsrc => ⟨_, step_regReg_of_src_outside hf hsrc, rfl⟩⟩

/-- With both selectors in memory, the step and STEP answer what the meaning makes of the state past them. -/
theorem step_regReg_of_fits {mk : Byte → Byte → Instr} {s u : State}
    (hf : fetchInstr s = fetchRegReg mk (s.afterFetch 1)) (h : s.ip + 3 ≤ s.memSize)
    (he : exec (mk (s.mem.read (s.ip + 1)) (s.mem.read (s.ip + 2))) (s.afterFetch 3) = .next u) :
    step s = .next u
    ∧ hostStep s = (u, instrOutcome (mk (s.mem.read (s.ip + 1)) (s.mem.read (s.ip + 2)))) := by
  have hi := fetchInstr_regReg_of_fits hf h
  exact ⟨(step_of_instr hi).trans he, hostStep_of_instr hi he⟩

/-! ## The difference as an integer (R119) -/

/-- Word subtraction is the integer difference modulo 2^32, whichever operand is the larger. -/
theorem toNat_sub_eq_emod (a b : Word) : ((a - b).toNat : Int) = ((a.toNat : Int) - b.toNat) % 2 ^ 32 := by
  rw [BitVec.toNat_sub]
  omega

/-! ## R120, R125 -/

/-- Settles O20: both registers are read in the state past the fetch, and the word sum is the sum modulo 2^32. -/
theorem stepAddRegReg : Obligations.StepAddRegReg := by
  intro s h hb
  have hf : fetchInstr s = fetchRegReg .addRegReg (s.afterFetch 1) := fetchInstr_of_byte (o := .addRegReg) h hb
  obtain ⟨hdst, hsrc⟩ := step_regReg_faults hf
  refine ⟨hdst, hsrc, fun hfit => ?_⟩
  obtain ⟨hstep, hhost⟩ := step_regReg_of_fits hf hfit (exec_addRegReg _ _ _)
  exact ⟨_, _, hstep, hhost, rfl, BitVec.toNat_add _ _⟩

/-- Settles O21: both registers are read in the state past the fetch, and the word difference is the integer
difference modulo 2^32. -/
theorem stepSubRegReg : Obligations.StepSubRegReg := by
  intro s h hb
  have hf : fetchInstr s = fetchRegReg .subRegReg (s.afterFetch 1) := fetchInstr_of_byte (o := .subRegReg) h hb
  obtain ⟨hdst, hsrc⟩ := step_regReg_faults hf
  refine ⟨hdst, hsrc, fun hfit => ?_⟩
  obtain ⟨hstep, hhost⟩ := step_regReg_of_fits hf hfit (exec_subRegReg _ _ _)
  exact ⟨_, _, hstep, hhost, rfl, toNat_sub_eq_emod _ _⟩

end Sys2Proof.Machine
end

section
/-! Format R, and PRINT_REG as a whole step with the text of its event (30_encoding.md R61, 44_output.md R163). -/
namespace Sys2Proof.Machine

/-! ## An instruction of format R at IP, by whether memory holds its selector -/

/-- The selector outside memory faults, with the state past the opcode. -/
theorem step_reg_of_outside {mk : Byte → Instr} {s : State}
    (hf : fetchInstr s = fetchReg mk (s.afterFetch 1)) (h : s.memSize ≤ s.ip + 1) :
    step s = .fault (.outOfRange (s.ip + 1) 1 (s.afterFetch 1)) := by
  rw [fetchReg_afterFetch, if_pos h] at hf
  exact step_of_outOfRange hf

theorem fetchInstr_reg_of_fits {mk : Byte → Instr} {s : State}
    (hf : fetchInstr s = fetchReg mk (s.afterFetch 1)) (h : s.ip + 2 ≤ s.memSize) :
    fetchInstr s = .got (.instr (mk (s.mem.read (s.ip + 1)))) (s.afterFetch 2) := by
  rw [hf, fetchReg_afterFetch, if_neg (by omega)]

/-! ## R163 -/

theorem render_print_zero : render (.print 0#32) = ['0'] := by decide

/-- The word is printed as a natural number, so the largest one has no sign (R118). -/
theorem render_print_max : render (.print 0xFFFFFFFF#32) = "4294967295".toList := by decide

/-- Settles O24: the fetch of the selector decides, and past it the meaning only appends the event. -/
theorem stepPrintReg : Obligations.StepPrintReg := by
  intro s h hb
  have hf : fetchInstr s = fetchReg .printReg (s.afterFetch 1) := fetchInstr_of_byte (o := .printReg) h hb
  refine ⟨fun hout => ?outside, fun hfit => ?fits, render_print_zero, render_print_max⟩
  case outside => exact ⟨_, step_reg_of_outside hf hout, rfl⟩
  case fits =>
    have hi := fetchInstr_reg_of_fits hf hfit
    exact ⟨_, (step_of_instr hi).trans (exec_printReg _ _), hostStep_of_instr hi (exec_printReg _ _), rfl⟩

end Sys2Proof.Machine
end

section
/-! Decoding and encoding are inverse (30_encoding.md R60 to R68). -/
namespace Sys2Proof

/-! ## The decoder by its first byte -/

/-- A byte of the table leaves the operands to the decoder of its operation. -/
theorem decode_opcode_byte (o : Opcode) (bs : List Byte) : decode (o.byte :: bs) = decodeOperands o bs := by
  simp [decode, Opcode.ofByte_byte]

theorem decode_unknown {op : Byte} (h : Opcode.ofByte op = none) (bs : List Byte) :
    decode (op :: bs) = .unknownOpcode op bs := by
  simp [decode, h]

/-! ## The operand decoders on the bytes of their own format -/

theorem decodeWord_wordBytes (mk : Word → Instr) (w : Word) (rest : List Byte) :
    decodeWord mk (wordBytes w ++ rest) = .ok (mk w) rest := by
  simp [wordBytes, decodeWord, bigEndian_wordBytes]

theorem decodeRegWord_wordBytes (mk : Byte → Word → Instr) (r : Byte) (w : Word) (rest : List Byte) :
    decodeRegWord mk (r :: (wordBytes w ++ rest)) = .ok (mk r w) rest := by
  simp [wordBytes, decodeRegWord, bigEndian_wordBytes]

/-- Settles O1: the opcode byte selects the operation, and each operand decoder inverts its format. -/
theorem decodeOfEncode : Obligations.DecodeOfEncode := by
  intro i rest
  cases i with
  | nop => exact decode_opcode_byte .nop _
  | halt => exact decode_opcode_byte .halt _
  | loadRegImm r w => exact (decode_opcode_byte .loadRegImm _).trans (decodeRegWord_wordBytes _ r w rest)
  | movRegReg d r => exact decode_opcode_byte .movRegReg _
  | addRegReg d r => exact decode_opcode_byte .addRegReg _
  | subRegReg d r => exact decode_opcode_byte .subRegReg _
  | jmp w => exact (decode_opcode_byte .jmp _).trans (decodeWord_wordBytes _ w rest)
  | jz r w => exact (decode_opcode_byte .jz _).trans (decodeRegWord_wordBytes _ r w rest)
  | printReg r => exact decode_opcode_byte .printReg _
  | debugState => exact decode_opcode_byte .debugState _

/-! ## What each operand decoder accepts -/

theorem decodeReg_eq_ok {mk : Byte → Instr} {bs rest : List Byte} {i : Instr} (h : decodeReg mk bs = .ok i rest) :
    ∃ r, i = mk r ∧ bs = r :: rest := by
  unfold decodeReg at h
  split at h <;> cases h
  exact ⟨_, rfl, rfl⟩

theorem decodeRegReg_eq_ok {mk : Byte → Byte → Instr} {bs rest : List Byte} {i : Instr}
    (h : decodeRegReg mk bs = .ok i rest) : ∃ d r, i = mk d r ∧ bs = d :: r :: rest := by
  unfold decodeRegReg at h
  split at h <;> cases h
  exact ⟨_, _, rfl, rfl⟩

theorem decodeWord_eq_ok {mk : Word → Instr} {bs rest : List Byte} {i : Instr} (h : decodeWord mk bs = .ok i rest) :
    ∃ w, i = mk w ∧ bs = wordBytes w ++ rest := by
  unfold decodeWord at h
  split at h <;> cases h
  exact ⟨_, rfl, by rw [wordBytes_bigEndian]; rfl⟩

theorem decodeRegWord_eq_ok {mk : Byte → Word → Instr} {bs rest : List Byte} {i : Instr}
    (h : decodeRegWord mk bs = .ok i rest) : ∃ r w, i = mk r w ∧ bs = r :: (wordBytes w ++ rest) := by
  unfold decodeRegWord at h
  split at h <;> cases h
  exact ⟨_, _, rfl, by rw [wordBytes_bigEndian]; rfl⟩

/-- The operand bytes an operation accepts are those that its encoding puts after the opcode byte. -/
theorem decodeOperands_eq_ok {o : Opcode} {bs rest : List Byte} {i : Instr} (h : decodeOperands o bs = .ok i rest) :
    o.byte :: bs = encode i ++ rest := by
  cases o with
  | nop => cases h; rfl
  | halt => cases h; rfl
  | loadRegImm => obtain ⟨r, w, rfl, rfl⟩ := decodeRegWord_eq_ok h; rfl
  | movRegReg => obtain ⟨d, r, rfl, rfl⟩ := decodeRegReg_eq_ok h; rfl
  | addRegReg => obtain ⟨d, r, rfl, rfl⟩ := decodeRegReg_eq_ok h; rfl
  | subRegReg => obtain ⟨d, r, rfl, rfl⟩ := decodeRegReg_eq_ok h; rfl
  | jmp => obtain ⟨w, rfl, rfl⟩ := decodeWord_eq_ok h; rfl
  | jz => obtain ⟨r, w, rfl, rfl⟩ := decodeRegWord_eq_ok h; rfl
  | printReg => obtain ⟨r, rfl, rfl⟩ := decodeReg_eq_ok h; rfl
  | debugState => cases h; rfl

/-- Settles O2: the first byte is in the table, and its operation accepts only its own operand bytes. -/
theorem encodeOfDecode : Obligations.EncodeOfDecode := by
  intro bs i rest h
  cases bs with
  | nil => simp [decode] at h
  | cons op bs =>
    cases ho : Opcode.ofByte op with
    | none => simp [decode_unknown ho] at h
    | some o =>
      obtain rfl := Opcode.ofByte_eq_some.1 ho
      exact decodeOperands_eq_ok (decode_opcode_byte o bs ▸ h)

/-! ## The unknown bytes and the spec's words -/

/-- The ranges of R67 hold exactly the bytes that select no operation: they leave out the ten bytes of the table. -/
theorem ofByte_eq_none_iff {n : Nat} (hn : n < 256) : Opcode.ofByte (BitVec.ofNat 8 n) = none ↔
    (0x02 ≤ n ∧ n ≤ 0x0F) ∨ (0x12 ≤ n ∧ n ≤ 0x1F) ∨ (0x22 ≤ n ∧ n ≤ 0x2F) ∨ (0x32 ≤ n ∧ n ≤ 0x3F)
      ∨ (0x41 ≤ n ∧ n ≤ 0xEF) ∨ (0xF1 ≤ n ∧ n ≤ 0xFF) := by
  have hfind : Opcode.ofByte (BitVec.ofNat 8 n) = none ↔ ∀ o ∈ Opcode.all, ¬ o.byte.toNat = n := by
    simp only [Opcode.ofByte, List.find?_eq_none, beq_iff_eq, ← BitVec.toNat_inj, BitVec.toNat_ofNat,
      Nat.mod_eq_of_lt hn]
  rw [hfind]
  simp only [Opcode.all, List.forall_mem_cons, Opcode.byte, BitVec.reduceToNat, List.not_mem_nil, false_imp_iff,
    implies_true, and_true]
  omega

/-- Settles O4: the ten bytes of the table leave 246, and the decoder refuses each whatever follows it. -/
theorem unknownOpcodesRefused : Obligations.UnknownOpcodesRefused :=
  ⟨by decide +kernel, fun _ hn => ofByte_eq_none_iff hn, fun _ rest h => decode_unknown h rest⟩

/-- Settles O5: each word is the encoding of its instruction. -/
theorem specWordsDecode : Obligations.SpecWordsDecode :=
  ⟨decodeOfEncode (.loadRegImm 1 10) [], decodeOfEncode (.movRegReg 3 0) [], decodeOfEncode (.addRegReg 0 2) [],
    decodeOfEncode (.subRegReg 3 1) [], decodeOfEncode (.jmp 12) [], decodeOfEncode (.jz 3 40) [],
    decodeOfEncode (.printReg 0) [], decodeOfEncode .nop [], decodeOfEncode .halt [], decodeOfEncode .debugState []⟩

/-- Settles O7: a word read is put together from its four bytes. -/
theorem bigEndianRead : Obligations.BigEndianRead := fun _ _ => bigEndian_toNat _ _ _ _

end Sys2Proof
end

section
/-! The meanings of the ten instructions, once fetched: completion, result and frame (40_control.md to 44_output.md). -/
namespace Sys2Proof.Machine

/-- A state's registers are its eight registers in order. -/
theorem State.regs_eq_reg (s : State) :
    s.regs = #v[s.reg 0, s.reg 1, s.reg 2, s.reg 3, s.reg 4, s.reg 5, s.reg 6, s.reg 7] := by
  refine Vector.ext fun i hi => ?_
  match i with
  | 0 => rfl
  | 1 => rfl
  | 2 => rfl
  | 3 => rfl
  | 4 => rfl
  | 5 => rfl
  | 6 => rfl
  | 7 => rfl
  | i + 8 => exact absurd hi (by omega)

/-- Settles O8: each meaning is one register write, and the register then reads as the value written. -/
theorem registerWritesComplete : Obligations.RegisterWritesComplete := by
  refine fun d r imm s => ⟨⟨_, exec_loadRegImm d imm s, ?imm⟩, ⟨_, exec_movRegReg d r s, ?mov⟩,
    ⟨_, exec_addRegReg d r s, ?add⟩, ⟨_, exec_subRegReg d r s, ?sub⟩⟩
  case imm => exact s.reg_setReg_self _ _
  case mov => exact s.reg_setReg_self _ _
  case add => rw [State.reg_setReg_self, BitVec.toNat_add]
  case sub => rw [State.reg_setReg_self, BitVec.toNat_sub]; omega

/-- What a register write leaves unchanged. -/
theorem setReg_frame (s : State) (i : Fin 8) (v : Word) :
    (∀ k, k ≠ i → (s.setReg i v).reg k = s.reg k) ∧ (s.setReg i v).ip = s.ip ∧ (s.setReg i v).running = s.running
      ∧ (s.setReg i v).opCount = s.opCount ∧ (s.setReg i v).out = s.out ∧ s.SameStore (s.setReg i v) :=
  ⟨fun _ h => s.reg_setReg_ne v h, rfl, rfl, rfl, rfl, rfl, fun _ => rfl, rfl⟩

/-- Settles O9: each of the four meanings is one write of its destination register. -/
theorem registerWritesFrame : Obligations.RegisterWritesFrame := by
  rintro i d (⟨imm, rfl⟩ | ⟨r, rfl⟩ | ⟨r, rfl⟩ | ⟨r, rfl⟩) s t h
  case inl => cases (exec_loadRegImm d imm s).symm.trans h; exact setReg_frame _ _ _
  case inr.inl => cases (exec_movRegReg d r s).symm.trans h; exact setReg_frame _ _ _
  case inr.inr.inl => cases (exec_addRegReg d r s).symm.trans h; exact setReg_frame _ _ _
  case inr.inr.inr => cases (exec_subRegReg d r s).symm.trans h; exact setReg_frame _ _ _

/-- Settles O10: NOP ends in the state it finds and HALT in that state stopped. -/
theorem nopHaltComplete : Obligations.NopHaltComplete :=
  fun s => ⟨exec_nop s, _, exec_halt s, rfl, rfl, rfl, rfl, rfl, rfl, fun _ => rfl, rfl⟩

/-- What a write of IP leaves unchanged. -/
theorem setIp_frame (s : State) (a : Nat) :
    (s.setIp a).regs = s.regs ∧ (s.setIp a).running = s.running ∧ (s.setIp a).opCount = s.opCount
      ∧ (s.setIp a).out = s.out ∧ s.SameStore (s.setIp a) :=
  ⟨rfl, rfl, rfl, rfl, rfl, fun _ => rfl, rfl⟩

/-- Settles O11: JMP writes IP, and JZ does so exactly where its register reads as the zero word. -/
theorem jumpsComplete : Obligations.JumpsComplete := by
  refine fun r addr s => ⟨⟨_, exec_jmp addr s, rfl, setIp_frame s _⟩, ?_⟩
  by_cases hz : s.reg (regSel r) = 0#32
  · exact ⟨_, exec_jz_taken addr hz, by simp [hz], setIp_frame s _⟩
  · have hne : (s.reg (regSel r)).toNat ≠ 0 := fun e => hz (BitVec.eq_of_toNat_eq e)
    exact ⟨_, exec_jz_not_taken addr hz, (if_neg hne).symm, rfl, rfl, rfl, rfl, rfl, fun _ => rfl, rfl⟩

/-- What an emitted event leaves unchanged. -/
theorem emit_frame (s : State) (e : OutputEvent) :
    (s.emit e).regs = s.regs ∧ (s.emit e).ip = s.ip ∧ (s.emit e).running = s.running
      ∧ (s.emit e).opCount = s.opCount ∧ s.SameStore (s.emit e) :=
  ⟨rfl, rfl, rfl, rfl, rfl, fun _ => rfl, rfl⟩

/-- Settles O12: both meanings emit one event; the snapshot holds the eight registers in order. -/
theorem outputsComplete : Obligations.OutputsComplete := by
  refine fun r s => ⟨⟨_, exec_printReg r s, rfl, emit_frame s _⟩, ⟨_, exec_debugState s, ?_, emit_frame s _⟩⟩
  rw [← s.regs_eq_reg]
  rfl

end Sys2Proof.Machine
end

section
/-! The length of an instruction (30_encoding.md R60). -/
namespace Sys2Proof

theorem Opcode.length_bounds (o : Opcode) : 1 ≤ o.length ∧ o.length ≤ 6 := by cases o <;> decide

end Sys2Proof
end

section
/-! Formats A, RI and RA, and LOAD_REG_IMM, JMP, JZ, DEBUG_STATE and the counted unknown opcode as whole steps
(30_encoding.md R61, 41_data_movement.md R100, 43_control_flow.md R140, R145, 44_output.md R165, 60_exceptions.md R189). -/
namespace Sys2Proof.Machine

/-! ## An instruction of format RI or RA at IP, by how much of it memory holds -/

/-- The selector is outside memory. -/
theorem step_regWord_of_reg_outside {mk : Byte → Word → Instr} {s : State}
    (hf : fetchInstr s = fetchRegWord mk (s.afterFetch 1)) (h : s.memSize ≤ s.ip + 1) :
    step s = .fault (.outOfRange (s.ip + 1) 1 (s.afterFetch 1)) := by
  rw [fetchRegWord_afterFetch, if_pos h] at hf
  exact step_of_outOfRange hf

/-- Memory holds the selector and cuts the operand short. -/
theorem step_regWord_of_word_outside {mk : Byte → Word → Instr} {s : State}
    (hf : fetchInstr s = fetchRegWord mk (s.afterFetch 1)) (hreg : s.ip + 1 < s.memSize) (h : s.memSize < s.ip + 6) :
    step s = .fault (.outOfRange (s.ip + 2) 4 (s.afterFetch 2)) := by
  rw [fetchRegWord_afterFetch, if_neg (by omega), if_pos h] at hf
  exact step_of_outOfRange hf

/-- The whole instruction is in memory. -/
theorem fetchInstr_regWord_of_fits {mk : Byte → Word → Instr} {s : State}
    (hf : fetchInstr s = fetchRegWord mk (s.afterFetch 1)) (h : s.ip + 6 ≤ s.memSize) :
    fetchInstr s = .got (.instr (mk (s.mem.read (s.ip + 1)) (s.mem.readWord (s.ip + 2)))) (s.afterFetch 6) := by
  rw [hf, fetchRegWord_afterFetch, if_neg (by omega), if_neg (by omega)]

/-! ## An instruction of format A at IP, by whether memory holds its operand -/

/-- Memory cuts the operand short. -/
theorem step_word_of_outside {mk : Word → Instr} {s : State}
    (hf : fetchInstr s = fetchWord mk (s.afterFetch 1)) (h : s.memSize < s.ip + 5) :
    step s = .fault (.outOfRange (s.ip + 1) 4 (s.afterFetch 1)) := by
  rw [fetchWord_afterFetch, if_pos h] at hf
  exact step_of_outOfRange hf

/-- The whole instruction is in memory. -/
theorem fetchInstr_word_of_fits {mk : Word → Instr} {s : State}
    (hf : fetchInstr s = fetchWord mk (s.afterFetch 1)) (h : s.ip + 5 ≤ s.memSize) :
    fetchInstr s = .got (.instr (mk (s.mem.readWord (s.ip + 1)))) (s.afterFetch 5) := by
  rw [hf, fetchWord_afterFetch, if_neg (by omega)]

/-! ## R100, R140, R145, R165, R189 -/

/-- Settles O18: the selector fetch and the immediate fetch give the faults, and past them the meaning writes. -/
theorem stepLoadRegImm : Obligations.StepLoadRegImm := by
  intro s h hb
  have hf : fetchInstr s = fetchRegWord .loadRegImm (s.afterFetch 1) := fetchInstr_of_byte (o := .loadRegImm) h hb
  refine ⟨step_regWord_of_reg_outside hf, step_regWord_of_word_outside hf, fun hfit => ?_⟩
  have hi := fetchInstr_regWord_of_fits hf hfit
  exact ⟨hostStep_of_instr hi (exec_loadRegImm _ _ _), (step_of_instr hi).trans (exec_loadRegImm _ _ _)⟩

/-- Settles O22: the operand fetch decides, and past it the meaning writes only IP. -/
theorem stepJmp : Obligations.StepJmp := by
  intro s h hb
  have hf : fetchInstr s = fetchWord .jmp (s.afterFetch 1) := fetchInstr_of_byte (o := .jmp) h hb
  refine ⟨step_word_of_outside hf, fun hfit => ?_⟩
  have hi := fetchInstr_word_of_fits hf hfit
  exact ⟨_, (step_of_instr hi).trans (exec_jmp _ _), hostStep_of_instr hi (exec_jmp _ _), rfl⟩

/-- Settles O23: both fetches come before the register is tested, so the faults do not depend on it. -/
theorem stepJz : Obligations.StepJz := by
  intro s h hb
  have hf : fetchInstr s = fetchRegWord .jz (s.afterFetch 1) := fetchInstr_of_byte (o := .jz) h hb
  refine ⟨step_regWord_of_reg_outside hf, step_regWord_of_word_outside hf, fun hfit => ?_⟩
  have hi := fetchInstr_regWord_of_fits hf hfit
  by_cases hz : s.reg (regSel (s.mem.read (s.ip + 1))) = 0#32
  · have he := exec_jz_taken (s := s.afterFetch 6) (s.mem.readWord (s.ip + 2)) hz
    exact ⟨_, (step_of_instr hi).trans he, hostStep_of_instr hi he, fun _ => rfl, fun hne => absurd (by rw [hz]; rfl) hne⟩
  · have he := exec_jz_not_taken (s := s.afterFetch 6) (s.mem.readWord (s.ip + 2)) hz
    exact ⟨_, (step_of_instr hi).trans he, hostStep_of_instr hi he, fun h0 => absurd (BitVec.eq_of_toNat_eq h0) hz,
      fun _ => rfl⟩

/-- Settles O25: the snapshot is taken in the state past the one byte. -/
theorem stepDebugState : Obligations.StepDebugState := by
  refine fun s => ⟨fun h hb => ?_, fun h => ⟨s, step_of_ge h⟩⟩
  have hf : fetchInstr s = .got (.instr .debugState) (s.afterFetch 1) := fetchInstr_of_byte (o := .debugState) h hb
  exact ⟨_, (step_of_instr hf).trans (exec_debugState _), hostStep_of_instr hf (exec_debugState _), rfl⟩

/-- Settles O17: the stop is a next state, so the turn of the loop counts it and adds nothing else. -/
theorem stepUnknownOpcodeCounted : Obligations.StepUnknownOpcodeCounted :=
  fun _ h ho => runIteration_of_next (step_of_unknown (fetchInstr_unknown h ho))

/-! ## The bytes of an instruction at IP decide the fetch (R80) -/

theorem length_window (s : State) (a n : Nat) : (s.window a n).length = n := by simp [State.window]

/-- What a byte of a window is. -/
theorem read_of_window_eq {s : State} {a n k : Nat} {b : Byte} {bs : List Byte} (h : s.window a n = bs)
    (hk : bs[k]? = some b) : s.mem.read (a + k) = b := by
  subst h
  obtain ⟨hlt, rfl⟩ := List.getElem?_eq_some_iff.1 hk
  simp [State.window]

/-- Bytes that a window begins with stand at its address. -/
theorem window_eq_of_append {s : State} {a n : Nat} {bs rest : List Byte} (h : s.window a n = bs ++ rest) :
    s.window a bs.length = bs := by
  have hlen : bs.length ≤ n := by
    have := congrArg List.length h
    simp only [length_window, List.length_append] at this
    omega
  have htake := congrArg (List.take bs.length) h
  rw [List.take_left] at htake
  rwa [State.window, ← List.map_take, List.take_range, Nat.min_eq_left hlen] at htake

/-- A word's bytes at an address are read back as the word. -/
theorem readWord_of_window_eq {s : State} {a k n : Nat} {w : Word} {bs : List Byte} (h : s.window a n = bs)
    (h0 : bs[k]? = some (w.extractLsb' 24 8)) (h1 : bs[k + 1]? = some (w.extractLsb' 16 8))
    (h2 : bs[k + 2]? = some (w.extractLsb' 8 8)) (h3 : bs[k + 3]? = some (w.extractLsb' 0 8)) :
    s.mem.readWord (a + k) = w := by
  rw [Memory.readWord, read_of_window_eq h h0, show a + k + 1 = a + (k + 1) from rfl, read_of_window_eq h h1,
    show a + k + 2 = a + (k + 2) from rfl, read_of_window_eq h h2, show a + k + 3 = a + (k + 3) from rfl,
    read_of_window_eq h h3, bigEndian_wordBytes]

/-- The bytes of a format-RR instruction at IP are fetched as it. -/
theorem fetchInstr_regReg_of_window {mk : Byte → Byte → Instr} {s : State} {op d r : Byte}
    (hf : fetchInstr s = fetchRegReg mk (s.afterFetch 1)) (hfit : s.ip + 3 ≤ s.memSize)
    (hw : s.window s.ip 3 = [op, d, r]) : fetchInstr s = .got (.instr (mk d r)) (s.afterFetch 3) := by
  rw [fetchInstr_regReg_of_fits hf hfit, read_of_window_eq (k := 1) hw rfl, read_of_window_eq (k := 2) hw rfl]

/-- The bytes of a format-RI or format-RA instruction at IP are fetched as it. -/
theorem fetchInstr_regWord_of_window {mk : Byte → Word → Instr} {s : State} {op r : Byte} {w : Word}
    (hf : fetchInstr s = fetchRegWord mk (s.afterFetch 1)) (hfit : s.ip + 6 ≤ s.memSize)
    (hw : s.window s.ip 6 = op :: r :: wordBytes w) : fetchInstr s = .got (.instr (mk r w)) (s.afterFetch 6) := by
  rw [fetchInstr_regWord_of_fits hf hfit, read_of_window_eq (k := 1) hw rfl, readWord_of_window_eq hw rfl rfl rfl rfl]

/-- The encoding of an instruction at IP is fetched as that instruction. -/
theorem fetchInstr_of_hasBytes {s : State} {i : Instr} (h : s.HasBytes s.ip (encode i)) :
    fetchInstr s = .got (.instr i) (s.afterFetch i.length) := by
  obtain ⟨hfit, hw⟩ := h
  have hlt : s.ip < s.memSize := by
    have := i.opcode.length_bounds
    rw [length_encode, Instr.length] at hfit
    omega
  have hb : s.mem.read s.ip = i.opcode.byte :=
    read_of_window_eq (k := 0) hw (by rw [← List.head?_eq_getElem?, encode_head?])
  have hf := fetchInstr_of_byte hlt hb
  cases i with
  | nop => exact hf
  | halt => exact hf
  | debugState => exact hf
  | loadRegImm r w => exact fetchInstr_regWord_of_window hf hfit hw
  | jz r w => exact fetchInstr_regWord_of_window hf hfit hw
  | movRegReg d r => exact fetchInstr_regReg_of_window hf hfit hw
  | addRegReg d r => exact fetchInstr_regReg_of_window hf hfit hw
  | subRegReg d r => exact fetchInstr_regReg_of_window hf hfit hw
  | jmp w => exact (fetchInstr_word_of_fits hf hfit).trans (by rw [readWord_of_window_eq hw rfl rfl rfl rfl]; rfl)
  | printReg r => exact (fetchInstr_reg_of_fits hf hfit).trans (by rw [read_of_window_eq (k := 1) hw rfl]; rfl)

/-- Settles O13: what the bytes at IP decode to is encoded there, and its encoding is fetched as it. -/
theorem stepRunsDecoded : Obligations.StepRunsDecoded := by
  intro s i rest h
  have hcode : s.codeBytes = encode i ++ rest := encodeOfDecode _ _ _ h
  have hlen := congrArg List.length hcode
  rw [State.codeBytes, length_window, List.length_append] at hlen
  have hpos : 1 ≤ (encode i).length := length_encode i ▸ i.opcode.length_bounds.1
  exact step_of_instr (fetchInstr_of_hasBytes ⟨by omega, window_eq_of_append hcode⟩)

end Sys2Proof.Machine
end

section
/-! What a step that gives a next state makes of the state after its fetch, and what every step keeps (40_control.md
R80 to R83, 10_state.md R26 to R37, 60_exceptions.md R181, R183). -/
namespace Sys2Proof.Machine

/-! ## The one effect of a step (R82) -/

/-- The step of `s` that fetched `n` bytes ended in this state with this outcome: at most one write after the fetch. -/
inductive StepEffect (s : State) : Nat → State → StepOutcome → Prop
  | nothing {n : Nat} : StepEffect s n (s.afterFetch n) .completed
  | register {n : Nat} (k : Fin 8) (v : Word) : StepEffect s n ((s.afterFetch n).setReg k v) .completed
  | jump {n : Nat} (a : Nat) (h : a < s.memSize) : StepEffect s n ((s.afterFetch n).setIp a) .completed
  | print {n : Nat} (v : Word) : StepEffect s n ((s.afterFetch n).emit (.print v)) .completed
  | debug {n : Nat} (snap : Snapshot) : StepEffect s n ((s.afterFetch n).emit (.debug snap)) .completed
  | halt (h : s.mem.read s.ip = 0x01#8) : StepEffect s 1 (s.afterFetch 1).stop .halted
  | unknown (h : Opcode.ofByte (s.mem.read s.ip) = none) :
      StepEffect s 1 (takeUnknownOpcode (s.mem.read s.ip) s.ip (s.afterFetch 1)) (.unknownOpcode (s.mem.read s.ip) s.ip)

/-- Every step to a next state has one such effect. -/
theorem step_next_effect {s t : State} (h : step s = .next t) :
    ∃ n o, 1 ≤ n ∧ n ≤ 6 ∧ s.ip + n ≤ s.memSize ∧ stepOutcome s = o ∧ StepEffect s n t o := by
  rcases step_next_cases h with ⟨i, he, ho, hb, hlt, hfit⟩ | ⟨rfl, ho, hnone, hlt⟩
  · refine ⟨i.length, _, i.opcode.length_bounds.1, i.opcode.length_bounds.2, hfit, ho, ?_⟩
    obtain ⟨t', he', hcases⟩ := exec_cases i (s.afterFetch i.length)
    obtain rfl : t' = t := by rw [he] at he'; cases he'; rfl
    rcases hcases with ⟨rfl, hc⟩ | ⟨rfl, rfl⟩ | ⟨⟨k, v, rfl⟩, hc⟩ | ⟨⟨a, rfl⟩, hc⟩ | ⟨⟨v, rfl⟩, hc⟩ | ⟨⟨snap, rfl⟩, hc⟩
    · rw [hc]; exact .nothing
    · exact .halt hb
    · rw [hc]; exact .register k v
    · rw [hc]; exact .jump _ (Nat.mod_lt a (Nat.zero_lt_of_lt hlt))
    · rw [hc]; exact .print v
    · rw [hc]; exact .debug snap
  · exact ⟨1, _, by omega, by omega, hlt, ho, .unknown hnone⟩

/-- No step writes memory or its size. -/
theorem step_keeps_memory {s t : State} (h : step s = .next t) : t.mem = s.mem ∧ t.memSize = s.memSize := by
  obtain ⟨n, o, -, -, -, -, he⟩ := step_next_effect h
  cases he <;> exact ⟨rfl, rfl⟩

/-- A step leaves IP inside memory or just past its end. -/
theorem step_ip_le {s t : State} (h : step s = .next t) : t.ip ≤ s.memSize := by
  obtain ⟨n, o, -, -, hfit, -, he⟩ := step_next_effect h
  cases he with
  | jump a ha => exact Nat.le_of_lt ha
  | nothing => exact hfit
  | register k v => exact hfit
  | print v => exact hfit
  | debug snap => exact hfit
  | halt hb => exact hfit
  | unknown hnone => exact hfit

/-- Settles O37: the fetch counts the opcode, and no effect writes a counter. -/
theorem stepCountsOneOpcode : Obligations.StepCountsOneOpcode := by
  intro s t h
  obtain ⟨n, o, -, -, -, -, he⟩ := step_next_effect h
  cases he <;> exact ⟨rfl, rfl⟩

/-- Settles O38: of the effects only HALT's and the unknown opcode's write `running`, and they clear it. -/
theorem runningClearedOnlyByStops : Obligations.RunningClearedOnlyByStops := by
  intro s t h hne
  obtain ⟨n, o, -, -, -, -, he⟩ := step_next_effect h
  cases he with
  | halt hb => exact ⟨rfl, .inl hb⟩
  | unknown hnone => exact ⟨rfl, .inr hnone⟩
  | nothing => exact absurd rfl hne
  | register k v => exact absurd rfl hne
  | jump a ha => exact absurd rfl hne
  | print v => exact absurd rfl hne
  | debug snap => exact absurd rfl hne

/-- Settles O39: the effects are the writes of the rule. -/
theorem stepWritesAtMostOne : Obligations.StepWritesAtMostOne := by
  intro s t h
  obtain ⟨n, o, h1, h6, -, -, he⟩ := step_next_effect h
  refine ⟨s.afterFetch n, n, h1, h6, rfl, ?_⟩
  cases he with
  | nothing => exact .inl rfl
  | register k v => exact .inr (.inl ⟨k, v, rfl⟩)
  | jump a ha => exact .inr (.inr (.inl ⟨a, ha, rfl⟩))
  | halt hb => exact .inr (.inr (.inr (.inl rfl)))
  | print v => exact .inr (.inr (.inr (.inr (.inl ⟨_, rfl⟩))))
  | debug snap => exact .inr (.inr (.inr (.inr (.inl ⟨_, rfl⟩))))
  | unknown hnone => exact .inr (.inr (.inr (.inr (.inr ⟨_, rfl⟩))))

/-! ## Faults -/

/-- Settles O28: a fetch decides between a meaning, which completes, the unknown-opcode stop and the fault. -/
theorem onlyFetchFaults : Obligations.OnlyFetchFaults := by
  have hexec (i : Instr) (s : State) : ∃ t, exec i s = .next t := (exec_cases i s).imp fun _ => And.left
  refine ⟨fun s => ?_, hexec⟩
  rcases step_cases s with ⟨i, hs, -⟩ | ⟨hs, -⟩ | ⟨hs, -⟩ | ⟨o, k, n, hs, -⟩
  · exact .inl (hs ▸ hexec i _)
  · exact .inl ⟨_, hs⟩
  · exact .inr ⟨_, _, _, hs⟩
  · exact .inr ⟨_, _, _, hs⟩

/-- Settles O26: the opcode fetch fails in the state itself, an operand fetch one or two bytes past the counted opcode. -/
theorem faultLeavesFetchState : Obligations.FaultLeavesFetchState := by
  intro s t addr n h
  obtain ⟨-, ⟨rfl, rfl, rfl, hge⟩ | ⟨o, k, rfl, rfl, -, h1, h2, hn, hout, -⟩⟩ := step_fault_cases h
  · exact ⟨by omega, .inl rfl, by omega, by omega, by simp⟩
  · exact ⟨hout, hn, by omega, by omega, by rw [if_neg (by omega)]; rfl⟩

/-- Settles O27: the two ways to fault are the two ways that the bytes at IP can leave memory. -/
theorem stepFaultsExactly : Obligations.StepFaultsExactly := by
  intro s
  constructor
  · rintro ⟨⟨addr, n, t⟩, h⟩
    obtain ⟨-, ⟨-, -, -, hge⟩ | ⟨o, k, -, -, ho, -, -, -, -, -, hcut⟩⟩ := step_fault_cases h
    · exact .inl hge
    · exact .inr ⟨o, ho, hcut⟩
  · intro h
    rcases Nat.lt_or_ge s.ip s.memSize with hlt | hge
    · obtain ⟨o, ho, hcut⟩ := h.resolve_left (by omega)
      obtain ⟨addr, n, t, hs⟩ := step_of_cut hlt ho hcut
      exact ⟨_, hs⟩
    · exact ⟨_, step_of_ge hge⟩

/-! ## The invariant (10_state.md R37) -/

/-- With the memory left as it is, the invariant asks only that IP stays in range. -/
theorem State.Inv.of_memory_eq {s t : State} (h : s.Inv) (hmem : t.mem = s.mem) (hsize : t.memSize = s.memSize)
    (hip : t.ip ≤ s.memSize) : t.Inv := by
  obtain ⟨hpos, -, hwf, hcells⟩ := h
  unfold State.Inv
  rw [hmem, hsize]
  exact ⟨hpos, hip, hwf, hcells⟩

/-- Settles O30: a step keeps the memory and lands in range. -/
theorem stepKeepsInvariant : Obligations.StepKeepsInvariant := by
  intro s t hinv h
  obtain ⟨hmem, hsize⟩ := step_keeps_memory h
  exact ⟨hinv.of_memory_eq hmem hsize (step_ip_le h), hsize⟩

/-- Settles O31: a fault keeps the memory and leaves IP where the fetch began. -/
theorem faultKeepsInvariant : Obligations.FaultKeepsInvariant := by
  intro s t addr n hinv h
  obtain ⟨-, ⟨-, -, rfl, -⟩ | ⟨o, k, -, rfl, -, -, -, -, -, hle, -⟩⟩ := step_fault_cases h
  · exact ⟨hinv, rfl⟩
  · exact ⟨hinv.of_memory_eq rfl rfl hle, rfl⟩

/-- Power-on with a legal configuration meets the invariant: MEM_INIT is canonical and lies inside the memory. -/
theorem powerOn_inv {c : Config} (h : c.WellFormed) : (State.powerOn c).Inv := by
  have ⟨hpos, _, _, hinside⟩ := h
  exact ⟨hpos, Nat.zero_le _, Memory.wf_powerOn h, hinside⟩

/-- The reference configuration is legal: its memory has bytes, and its MEM_INIT lists none. -/
theorem reference_wellFormed : Config.reference.WellFormed := by decide

/-- Settles O34: the reset state is power-on with the reference configuration. -/
theorem resetMeetsInvariant : Obligations.ResetMeetsInvariant := powerOn_inv reference_wellFormed

/-- Settles O35: IP is at most MEM_SIZE, which has one bit more than its logarithm. -/
theorem ipFitsIpWidth : Obligations.IpFitsIpWidth := by
  rintro s ⟨-, hip, -, -⟩
  exact Nat.lt_of_le_of_lt hip Nat.lt_log2_self

end Sys2Proof.Machine
end

section
/-! No instruction reads `running`, the counters or the output stream (10_state.md R31, R32, R35). -/
namespace Sys2Proof.Machine

/-! ## States alike but for the host's part -/

/-- Two states that a program cannot tell apart, whose output streams go on from `p` and `q` with the same events. -/
structure AlikeFrom (p q : List OutputEvent) (s s' : State) : Prop where
  view : s.SameProgramView s'
  events : ∃ es, s.out = p ++ es ∧ s'.out = q ++ es

namespace AlikeFrom

variable {p q : List OutputEvent} {s s' : State}

theorem start (h : s.SameProgramView s') : AlikeFrom s.out s'.out s s' := ⟨h, [], by simp⟩

theorem memSize_eq (h : AlikeFrom p q s s') : s'.memSize = s.memSize := h.view.1
theorem mem_eq (h : AlikeFrom p q s s') : s'.mem = s.mem := h.view.2.1
theorem regs_eq (h : AlikeFrom p q s s') : s'.regs = s.regs := h.view.2.2.1
theorem ip_eq (h : AlikeFrom p q s s') : s'.ip = s.ip := h.view.2.2.2
theorem reg_eq (h : AlikeFrom p q s s') (i : Fin 8) : s'.reg i = s.reg i := State.reg_congr h.regs_eq i
theorem snapshot_eq (h : AlikeFrom p q s s') : s'.snapshot = s.snapshot := by
  simp only [State.snapshot, h.ip_eq, h.regs_eq]

/-! Every update of the state keeps two states alike. -/

theorem setIp (h : AlikeFrom p q s s') (a : Nat) : AlikeFrom p q (s.setIp a) (s'.setIp a) :=
  ⟨⟨h.memSize_eq, h.mem_eq, h.regs_eq, rfl⟩, h.events⟩

theorem setReg (h : AlikeFrom p q s s') (i : Fin 8) (v : Word) : AlikeFrom p q (s.setReg i v) (s'.setReg i v) :=
  ⟨⟨h.memSize_eq, h.mem_eq, congrArg (·.set i v) h.regs_eq, h.ip_eq⟩, h.events⟩

theorem countOp (h : AlikeFrom p q s s') : AlikeFrom p q s.countOp s'.countOp := ⟨h.view, h.events⟩

theorem stop (h : AlikeFrom p q s s') : AlikeFrom p q s.stop s'.stop := ⟨h.view, h.events⟩

theorem emit (h : AlikeFrom p q s s') (e : OutputEvent) : AlikeFrom p q (s.emit e) (s'.emit e) := by
  obtain ⟨es, hs, hs'⟩ := h.events
  exact ⟨h.view, es ++ [e], by simp [hs], by simp [hs']⟩

theorem takeUnknownOpcode (h : AlikeFrom p q s s') (op : Byte) (a : Nat) :
    AlikeFrom p q (takeUnknownOpcode op a s) (takeUnknownOpcode op a s') := (h.emit _).stop

end AlikeFrom

/-! ## Fetches -/

/-- Two fetches that answer the same, in states alike. -/
inductive Fetch.Alike {α : Type} (p q : List OutputEvent) : Fetch α → Fetch α → Prop
  | got (v : α) {s s' : State} (h : AlikeFrom p q s s') : Fetch.Alike p q (.got v s) (.got v s')
  | outOfRange (addr n : Nat) {s s' : State} (h : AlikeFrom p q s s') :
      Fetch.Alike p q (.outOfRange addr n s) (.outOfRange addr n s')

section
variable {p q : List OutputEvent} {s s' : State}

theorem Fetch.Alike.andThen {α β : Type} {f f' : Fetch α} {k : α → State → Fetch β} (hf : Fetch.Alike p q f f')
    (hk : ∀ v s s', AlikeFrom p q s s' → Fetch.Alike p q (k v s) (k v s')) :
    Fetch.Alike p q (f.andThen k) (f'.andThen k) := by
  cases hf with
  | got v h => exact hk v _ _ h
  | outOfRange addr n h => exact .outOfRange addr n h

theorem fetchU8_alike (h : AlikeFrom p q s s') : Fetch.Alike p q (fetchU8 s) (fetchU8 s') := by
  rw [fetchU8, fetchU8, h.memSize_eq, h.mem_eq, h.ip_eq]
  split
  · exact .outOfRange _ _ h
  · exact .got _ (h.setIp _)

theorem fetchU32_alike (h : AlikeFrom p q s s') : Fetch.Alike p q (fetchU32 s) (fetchU32 s') := by
  rw [fetchU32, fetchU32, h.memSize_eq, h.mem_eq, h.ip_eq]
  split
  · exact .outOfRange _ _ h
  · exact .got _ (h.setIp _)

theorem fetchReg_alike (mk : Byte → Instr) (h : AlikeFrom p q s s') :
    Fetch.Alike p q (fetchReg mk s) (fetchReg mk s') :=
  (fetchU8_alike h).andThen fun _ _ _ h => .got _ h

theorem fetchRegReg_alike (mk : Byte → Byte → Instr) (h : AlikeFrom p q s s') :
    Fetch.Alike p q (fetchRegReg mk s) (fetchRegReg mk s') :=
  (fetchU8_alike h).andThen fun _ _ _ h => (fetchU8_alike h).andThen fun _ _ _ h => .got _ h

theorem fetchWord_alike (mk : Word → Instr) (h : AlikeFrom p q s s') :
    Fetch.Alike p q (fetchWord mk s) (fetchWord mk s') :=
  (fetchU32_alike h).andThen fun _ _ _ h => .got _ h

theorem fetchRegWord_alike (mk : Byte → Word → Instr) (h : AlikeFrom p q s s') :
    Fetch.Alike p q (fetchRegWord mk s) (fetchRegWord mk s') :=
  (fetchU8_alike h).andThen fun _ _ _ h => (fetchU32_alike h).andThen fun _ _ _ h => .got _ h

theorem fetchOperands_alike (o : Opcode) (h : AlikeFrom p q s s') :
    Fetch.Alike p q (fetchOperands o s) (fetchOperands o s') := by
  cases o with
  | nop => exact .got _ h
  | halt => exact .got _ h
  | loadRegImm => exact fetchRegWord_alike _ h
  | movRegReg => exact fetchRegReg_alike _ h
  | addRegReg => exact fetchRegReg_alike _ h
  | subRegReg => exact fetchRegReg_alike _ h
  | jmp => exact fetchWord_alike _ h
  | jz => exact fetchRegWord_alike _ h
  | printReg => exact fetchReg_alike _ h
  | debugState => exact .got _ h

theorem fetchAfterOpcode_alike (op : Byte) (h : AlikeFrom p q s s') :
    Fetch.Alike p q (fetchAfterOpcode op s) (fetchAfterOpcode op s') := by
  unfold fetchAfterOpcode
  cases Opcode.ofByte op with
  | none => exact .got _ h
  | some o => exact fetchOperands_alike o h

theorem fetchInstr_alike (h : AlikeFrom p q s s') : Fetch.Alike p q (fetchInstr s) (fetchInstr s') :=
  (fetchU8_alike h).andThen fun op _ _ h => fetchAfterOpcode_alike op h.countOp

/-! ## Meanings and steps -/

/-- A meaning takes states alike to states alike. -/
theorem exec_alike (i : Instr) (h : AlikeFrom p q s s') :
    ∃ t t', exec i s = .next t ∧ exec i s' = .next t' ∧ AlikeFrom p q t t' := by
  cases i with
  | nop => exact ⟨_, _, exec_nop s, exec_nop s', h⟩
  | halt => exact ⟨_, _, exec_halt s, exec_halt s', h.stop⟩
  | loadRegImm r w => exact ⟨_, _, exec_loadRegImm r w s, exec_loadRegImm r w s', h.setReg _ _⟩
  | movRegReg d r => exact ⟨_, _, exec_movRegReg d r s, exec_movRegReg d r s', by rw [h.reg_eq]; exact h.setReg _ _⟩
  | addRegReg d r =>
    exact ⟨_, _, exec_addRegReg d r s, exec_addRegReg d r s', by rw [h.reg_eq, h.reg_eq]; exact h.setReg _ _⟩
  | subRegReg d r =>
    exact ⟨_, _, exec_subRegReg d r s, exec_subRegReg d r s', by rw [h.reg_eq, h.reg_eq]; exact h.setReg _ _⟩
  | jmp a => exact ⟨_, _, exec_jmp a s, exec_jmp a s', by rw [h.memSize_eq]; exact h.setIp _⟩
  | jz r a =>
    refine ⟨_, _, exec_jz r a s, exec_jz r a s', ?_⟩
    rw [h.reg_eq, h.memSize_eq]
    split
    · exact h.setIp _
    · exact h
  | printReg r => exact ⟨_, _, exec_printReg r s, exec_printReg r s', by rw [h.reg_eq]; exact h.emit _⟩
  | debugState => exact ⟨_, _, exec_debugState s, exec_debugState s', by rw [h.snapshot_eq]; exact h.emit _⟩

/-- States alike step alike: to states alike with the same outcome, or into the same fault leaving states alike. -/
theorem step_alike (h : AlikeFrom p q s s') :
    (∃ t t', step s = .next t ∧ step s' = .next t' ∧ AlikeFrom p q t t' ∧ stepOutcome s = stepOutcome s')
    ∨ ∃ addr n t t', step s = .fault (.outOfRange addr n t) ∧ step s' = .fault (.outOfRange addr n t')
      ∧ AlikeFrom p q t t' := by
  have hf := fetchInstr_alike h
  generalize hs : fetchInstr s = f, hs' : fetchInstr s' = f' at hf
  cases hf with
  | got v hu =>
    refine .inl ?_
    cases v with
    | instr i =>
      obtain ⟨t, t', ht, ht', hstep⟩ := exec_alike i hu
      exact ⟨t, t', (step_of_instr hs).trans ht, (step_of_instr hs').trans ht', hstep, by simp [stepOutcome, hs, hs']⟩
    | unknown op =>
      exact ⟨_, _, step_of_unknown hs, step_of_unknown hs', by rw [h.ip_eq]; exact hu.takeUnknownOpcode op _,
        by simp [stepOutcome, hs, hs', h.ip_eq]⟩
  | outOfRange addr n hu => exact .inr ⟨addr, n, _, _, step_of_outOfRange hs, step_of_outOfRange hs', hu⟩

end

/-- Settles O40: two states with the same program view are alike from their own streams on, and step alike. -/
theorem stepIgnoresHostState : Obligations.StepIgnoresHostState := by
  intro s s' hview
  rcases step_alike (.start hview) with ⟨u, u', hu, hu', halike, hout⟩ | ⟨addr, n, u, u', hu, hu', halike⟩
  · refine ⟨fun t h => ?_, fun addr n t h => ?_, ?_⟩
    · cases hu.symm.trans h
      obtain ⟨es, he, he'⟩ := halike.events
      exact ⟨u', es, hu', halike.view, he, he'⟩
    · cases hu.symm.trans h
    · rw [hostStep_of_next hu, hostStep_of_next hu', hout]
  · refine ⟨fun t h => ?_, fun addr n t h => ?_, ?_⟩
    · cases hu.symm.trans h
    · cases hu.symm.trans h
      exact ⟨u', hu', halike.view⟩
    · rw [hostStep_of_fault hu, hostStep_of_fault hu']

end Sys2Proof.Machine
end

section
/-! STEP and the turns of the RUN loop (60_exceptions.md R189, R190, R195, R198, 10_state.md R27). -/
namespace Sys2Proof.Machine

/-! ## STEP and a turn follow the step -/

/-- STEP ends as the step does: in its next state with its outcome, or in the state the fault leaves. -/
theorem hostStep_cases (s : State) : (∃ t, step s = .next t ∧ hostStep s = (t, stepOutcome s))
    ∨ ∃ addr n t, step s = .fault (.outOfRange addr n t) ∧ hostStep s = (t, .fault (.outOfRange addr n)) := by
  rcases onlyFetchFaults.1 s with ⟨t, h⟩ | ⟨addr, n, t, h⟩
  · exact .inl ⟨t, h, hostStep_of_next h⟩
  · exact .inr ⟨addr, n, t, h, hostStep_of_fault h⟩

/-- A turn counts the step's next state, or contains its fault. -/
theorem runIteration_cases (s : State) : (∃ t, step s = .next t ∧ runIteration s = t.countStep)
    ∨ ∃ addr n t, step s = .fault (.outOfRange addr n t) ∧ runIteration s = containFault (.outOfRange addr n) t := by
  rcases onlyFetchFaults.1 s with ⟨t, h⟩ | ⟨addr, n, t, h⟩
  · exact .inl ⟨t, h, runIteration_of_next h⟩
  · exact .inr ⟨addr, n, t, h, runIteration_of_fault h⟩

/-- The outcome of a step that gives a next state is no fault. -/
theorem stepOutcome_ne_fault {s t : State} (h : step s = .next t) (i : FaultInfo) : stepOutcome s ≠ .fault i := by
  obtain ⟨n, o, -, -, -, ho, he⟩ := step_next_effect h
  rw [ho]
  cases he <;> exact StepOutcome.noConfusion

/-- What a fault leaves as it was. -/
theorem step_fault_frame {s t : State} {addr n : Nat} (h : step s = .fault (.outOfRange addr n t)) :
    t.ip = addr ∧ t.running = s.running ∧ t.stepCount = s.stepCount ∧ t.out = s.out := by
  obtain ⟨-, -, -, -, rfl⟩ := faultLeavesFetchState _ _ _ _ h
  exact ⟨rfl, rfl, rfl, rfl⟩

/-! ## The loop condition and the turns -/

theorem runGoesOn_iff {m : Nat} {s : State} : runGoesOn m s = true ↔ s.running = true ∧ s.stepCount < m := by
  simp [runGoesOn]

/-- A turn counts one step and one opcode, or ends the loop with the count as it was. -/
theorem runIteration_progress (s : State) :
    ((runIteration s).stepCount = s.stepCount + 1 ∧ (runIteration s).opCount = s.opCount + 1)
    ∨ ((runIteration s).running = false ∧ (runIteration s).stepCount = s.stepCount) := by
  rcases runIteration_cases s with ⟨t, h, hrun⟩ | ⟨addr, n, t, h, hrun⟩
  · obtain ⟨hop, hstep⟩ := stepCountsOneOpcode s t h
    exact .inl (hrun ▸ ⟨congrArg (· + 1) hstep, hop⟩)
  · obtain ⟨-, -, hstep, -⟩ := step_fault_frame h
    exact .inr (hrun ▸ ⟨rfl, hstep⟩)

/-- As many turns as the budget has steps left are enough to end the loop. -/
theorem runLoop_ends {m : Nat} (k : Nat) {s : State} (h : m ≤ s.stepCount + k) :
    runGoesOn m (runLoop m k s) = false := by
  induction k generalizing s with
  | zero => exact Bool.eq_false_iff.2 fun hg => absurd (runGoesOn_iff.1 hg).2 (Nat.not_lt.2 h)
  | succ k ih =>
    cases hg : runGoesOn m s with
    | false => rwa [runLoop_of_stopped hg]
    | true =>
      rw [runLoop_succ_of_goesOn hg]
      rcases runIteration_progress s with ⟨hc, -⟩ | ⟨hr, -⟩
      · exact ih (by omega)
      · rw [runLoop_of_not_running hr]
        simp [runGoesOn, hr]

/-! ## R189, R190, R195, R198 -/

/-- Settles O46: a turn uses up one step of the budget or ends the loop, so the bound on turns follows the count. -/
theorem runLoopIsWhile : Obligations.RunLoopIsWhile := by
  refine fun m s => ⟨fun hg => runLoop_of_stopped hg _, fun hg => ?_, runLoop_ends _ (by omega)⟩
  have hlt := (runGoesOn_iff.1 hg).2
  rw [show m - s.stepCount = m - (s.stepCount + 1) + 1 by omega, runLoop_succ_of_goesOn hg]
  rcases runIteration_progress s with ⟨hc, -⟩ | ⟨hr, -⟩
  · rw [hc]
  · rw [runLoop_of_not_running hr, runLoop_of_not_running hr]

/-- Settles O44: STEP hands on what the step answers, and the step reads nothing of the host's. -/
theorem stepCommandReturnsFault : Obligations.StepCommandReturnsFault := by
  refine fun s => ⟨fun t h => ?next, fun addr n t h => ?fault, ?count, fun b => ?running⟩
  case next => rw [hostStep_of_next h]; exact ⟨rfl, stepOutcome_ne_fault h⟩
  case fault =>
    obtain ⟨-, hr, -, ho⟩ := step_fault_frame h
    exact ⟨hostStep_of_fault h, hr, ho⟩
  case count =>
    rcases hostStep_cases s with ⟨t, h, hh⟩ | ⟨addr, n, t, h, hh⟩ <;> rw [hh]
    · exact (stepCountsOneOpcode s t h).2
    · exact (step_fault_frame h).2.2.1
  case running => exact (stepIgnoresHostState s { s with running := b } ⟨rfl, rfl, rfl, rfl⟩).2.2.symm

/-- Settles O45: the crash is reported on the state the fault leaves, whose stream and counts are those of before. -/
theorem runContainsFault : Obligations.RunContainsFault := by
  intro s t addr n h
  obtain ⟨-, -, hc, ho⟩ := step_fault_frame h
  have hrun := runIteration_of_fault h
  refine ⟨?_, hrun ▸ hc, runLoop_of_not_running (hrun ▸ rfl)⟩
  rw [hrun, ← ho]
  rfl

/-- Settles O53: HALT and an unknown opcode are one byte long, and a fault leaves IP at its address. -/
theorem resumeAfterStop : Obligations.ResumeAfterStop := by
  intro s
  have hend (hge : s.memSize ≤ s.ip) : hostStep (hostStep s).1 = hostStep s := by
    rw [hostStep_of_fault (step_of_ge hge), hostStep_of_fault (step_of_ge hge)]
  rcases hostStep_cases s with ⟨t, h, hh⟩ | ⟨addr, n, t, h, hh⟩
  · obtain ⟨n, o, -, -, -, ho, he⟩ := step_next_effect h
    rw [ho] at hh
    refine ⟨?_, ?_, ?_, hend⟩ <;> rw [hh]
    · rintro rfl; cases he; rfl
    · rintro op a rfl; cases he; exact ⟨rfl, rfl⟩
    · rintro addr n rfl; cases he
  · refine ⟨?_, ?_, ?_, hend⟩ <;> rw [hh]
    · exact nofun
    · exact nofun
    · rintro _ _ ⟨⟩; exact (step_fault_frame h).1

end Sys2Proof.Machine
end

section
/-! What a RUN emits, how it stands after each turn, and its result (60_exceptions.md R188 to R194, R207). -/
namespace Sys2Proof.Machine

/-! ## The events of a run -/

/-- No event of the list is a diagnostic. -/
def Quiet (es : List OutputEvent) : Prop := ∀ e ∈ es, e.isCrashDiag = false ∧ e.isUnknownOpcodeDiag = false

theorem quiet_nil : Quiet [] := fun _ h => nomatch h

theorem Quiet.concat {es : List OutputEvent} {e : OutputEvent} (h : Quiet es) (hc : e.isCrashDiag = false)
    (hu : e.isUnknownOpcodeDiag = false) : Quiet (es ++ [e]) := by
  intro d hd
  rcases List.mem_append.1 hd with hd | hd
  · exact h d hd
  · rw [List.mem_singleton.1 hd]; exact ⟨hc, hu⟩

theorem Quiet.any_eq_false {es : List OutputEvent} (h : Quiet es) :
    es.any OutputEvent.isCrashDiag = false ∧ es.any OutputEvent.isUnknownOpcodeDiag = false :=
  ⟨List.any_eq_false.2 fun e he => by simp [(h e he).1], List.any_eq_false.2 fun e he => by simp [(h e he).2]⟩

/-- A quiet run before other events does not change their stop code. -/
theorem stopCode_quiet_append {es : List OutputEvent} (h : Quiet es) (fs : List OutputEvent) (running : Bool) :
    stopCode (es ++ fs) running = stopCode fs running := by
  obtain ⟨hc, hu⟩ := h.any_eq_false
  simp [stopCode, List.any_append, hc, hu]

theorem stopCode_quiet {es : List OutputEvent} (h : Quiet es) (running : Bool) :
    stopCode es running = if running then .none else .halt := by
  have := stopCode_quiet_append h [] running
  rwa [List.append_nil] at this

theorem stopCode_crash (es : List OutputEvent) (info : FaultInfo) (running : Bool) :
    stopCode (es ++ [.crashDiag info]) running = .outOfRange := by
  simp [stopCode, OutputEvent.isCrashDiag]

theorem stopCode_unknown {es : List OutputEvent} (h : Quiet es) (op : Byte) (a : Nat) (running : Bool) :
    stopCode (es ++ [.unknownOpcodeDiag op a]) running = .unknownOpcode := by
  rw [stopCode_quiet_append h]
  rfl

/-! ## How a run stands -/

/-- How a run that has emitted `es` stands in state `t`: it goes on, or a HALT, an unknown opcode or a fault ended it. -/
inductive RunStatus : List OutputEvent → State → Prop
  | goes {es : List OutputEvent} {t : State} (hq : Quiet es) (hr : t.running = true) : RunStatus es t
  | halted {es : List OutputEvent} {t : State} (hq : Quiet es) (hr : t.running = false) (a : Nat) (hip : t.ip = a + 1)
      (hb : t.mem.read a = 0x01#8) : RunStatus es t
  | unknown {es : List OutputEvent} {t : State} (hq : Quiet es) (hr : t.running = false) (op : Byte) (a : Nat)
      (hip : t.ip = a + 1) (hb : t.mem.read a = op) (hop : Opcode.ofByte op = none) :
      RunStatus (es ++ [.unknownOpcodeDiag op a]) t
  | crashed {es : List OutputEvent} {t : State} (hq : Quiet es) (hr : t.running = false) (n : Nat) :
      RunStatus (es ++ [.crashDiag (.outOfRange t.ip n)]) t

/-- While `running` is set, nothing that ends a run has been emitted. -/
theorem RunStatus.quiet {es : List OutputEvent} {t : State} (h : RunStatus es t) (hr : t.running = true) : Quiet es := by
  cases h with
  | goes hq => exact hq
  | halted hq => exact hq
  | unknown hq hf => simp [hr] at hf
  | crashed hq hf => simp [hr] at hf

/-- Only the last event of a run can be a diagnostic. -/
theorem RunStatus.quiet_dropLast {es : List OutputEvent} {t : State} (h : RunStatus es t) : Quiet es.dropLast := by
  cases h with
  | goes hq => exact fun d hd => hq d (List.dropLast_subset es hd)
  | halted hq => exact fun d hd => hq d (List.dropLast_subset es hd)
  | unknown hq => rwa [List.dropLast_concat]
  | crashed hq => rwa [List.dropLast_concat]

/-- What each stop code says of a run that stands in one of these ways. -/
theorem RunStatus.stopCode_says {es : List OutputEvent} {t : State} (h : RunStatus es t) :
    (stopCode es t.running = .none → t.running = true)
    ∧ (stopCode es t.running = .outOfRange → ∃ fs n, es = fs ++ [.crashDiag (.outOfRange t.ip n)])
    ∧ (stopCode es t.running = .unknownOpcode → ∃ fs op a, t.ip = a + 1 ∧ t.mem.read a = op ∧ Opcode.ofByte op = none
        ∧ es = fs ++ [.unknownOpcodeDiag op a])
    ∧ (stopCode es t.running = .halt → t.running = false ∧ ∃ a, t.ip = a + 1 ∧ t.mem.read a = 0x01#8)
    ∧ stopCode es t.running ≠ .loadOutOfRange := by
  cases h with
  | goes hq hr => rw [stopCode_quiet hq, hr]; exact ⟨fun _ => rfl, nofun, nofun, nofun, nofun⟩
  | halted hq hr a hip hb =>
    rw [stopCode_quiet hq, hr]; exact ⟨nofun, nofun, nofun, fun _ => ⟨rfl, a, hip, hb⟩, nofun⟩
  | unknown hq hr op a hip hb hop =>
    rw [stopCode_unknown hq]; exact ⟨nofun, nofun, fun _ => ⟨_, op, a, hip, hb, hop, rfl⟩, nofun, nofun⟩
  | crashed hq hr n => rw [stopCode_crash]; exact ⟨nofun, fun _ => ⟨_, n, rfl⟩, nofun, nofun, nofun⟩

/-- The run that began with stream `p` stands in `t` in one of these ways. -/
def RunFrom (p : List OutputEvent) (t : State) : Prop := ∃ es, t.out = p ++ es ∧ RunStatus es t

/-- A turn of the loop that starts with `running` set leaves the run standing in one of these ways. -/
theorem RunFrom.runIteration {p : List OutputEvent} {s : State} (h : RunFrom p s) (hr : s.running = true) :
    RunFrom p (runIteration s) := by
  obtain ⟨es, hout, hst⟩ := h
  have hq := hst.quiet hr
  rcases runIteration_cases s with ⟨t, hs, hrun⟩ | ⟨addr, n, t, hs, hrun⟩ <;> rw [hrun]
  · obtain ⟨n, o, -, -, -, -, he⟩ := step_next_effect hs
    cases he with
    | nothing => exact ⟨es, hout, .goes hq hr⟩
    | register k v => exact ⟨es, hout, .goes hq hr⟩
    | jump a ha => exact ⟨es, hout, .goes hq hr⟩
    | print v => exact ⟨es ++ [.print v], by simp [hout], .goes (hq.concat rfl rfl) hr⟩
    | debug snap => exact ⟨es ++ [.debug snap], by simp [hout], .goes (hq.concat rfl rfl) hr⟩
    | halt hb => exact ⟨es, hout, .halted hq rfl s.ip rfl hb⟩
    | unknown hnone => exact ⟨_, by simp [hout], .unknown hq rfl _ s.ip rfl rfl hnone⟩
  · obtain ⟨rfl, -, -, ho⟩ := step_fault_frame hs
    exact ⟨_, by simp [ho, hout], .crashed (t := containFault _ t) hq rfl n⟩

/-- A RUN stands in one of these ways at its loop exit. -/
theorem runToExit_runFrom (m : Nat) (s : State) : RunFrom s.out (runToExit m s) :=
  runLoop_induct (fun _ h hg => h.runIteration (runGoesOn_iff.1 hg).1) m
    ⟨[], (List.append_nil _).symm, .goes quiet_nil rfl⟩

/-! ## The result of a run -/

theorem hostRun_fst (m : Nat) (e : Elapsed) (s : State) : (hostRun m e s).1
    = (runToExit m s).emit (.summary (hostRun m e s).2.stepCount (hostRun m e s).2.opCount e) := rfl

/-- The stop code of a run is that of the events up to its loop exit. -/
theorem hostRun_code {m : Nat} {s : State} {es : List OutputEvent} (h : (runToExit m s).out = s.out ++ es)
    (e : Elapsed) : (hostRun m e s).2.code = stopCode es (runToExit m s).running := by
  show stopCode ((runToExit m s).out.drop s.out.length) _ = _
  rw [h, List.drop_left]

/-- The stream of a run ends in two given events exactly if the loop's ends in the first of them. -/
theorem hostRun_out_eq_iff (m : Nat) (e : Elapsed) (s : State) (es : List OutputEvent) (d : OutputEvent) :
    (hostRun m e s).1.out
        = s.out ++ es ++ [d, .summary (hostRun m e s).2.stepCount (hostRun m e s).2.opCount e]
      ↔ (runToExit m s).out = s.out ++ (es ++ [d]) := by
  rw [hostRun_fst, State.emit_out, ← List.singleton_append (x := d), ← List.append_assoc, List.append_cancel_right_eq,
    List.append_assoc]

/-- Settles O47: RUN overwrites `running` and the counts it finds, and emits its Summary after the loop's events. -/
theorem runFreshAndSummarised : Obligations.RunFreshAndSummarised := by
  refine fun m e s b c o => ⟨rfl, ?_⟩
  obtain ⟨es, hout, -⟩ := runToExit_runFrom m s
  exact ⟨es, by rw [hostRun_fst, State.emit_out, hout]⟩

/-- Along a run the steps stay within the budget, and while it goes on each was one opcode. -/
theorem runToExit_counts (m : Nat) (s : State) : (runToExit m s).stepCount ≤ m
    ∧ ((runToExit m s).running = true → (runToExit m s).opCount = (runToExit m s).stepCount) := by
  refine runLoop_induct (P := fun t => t.stepCount ≤ m ∧ (t.running = true → t.opCount = t.stepCount))
    (fun t ⟨hle, hcount⟩ hg => ?_) m ⟨Nat.zero_le m, fun _ => rfl⟩
  obtain ⟨hr, hlt⟩ := runGoesOn_iff.1 hg
  rcases runIteration_progress t with ⟨hc, ho⟩ | ⟨hf, hc⟩
  · exact ⟨by omega, fun _ => by rw [hc, ho, hcount hr]⟩
  · exact ⟨by omega, fun hr' => by simp [hr'] at hf⟩

/-- A run that ends with `running` set has used its whole budget. -/
theorem runToExit_stepCount_of_running {m : Nat} {s : State} (h : (runToExit m s).running = true) :
    (runToExit m s).stepCount = m := by
  have hend : runGoesOn m (runToExit m s) = false := runLoop_ends m (by simp)
  have hle := (runToExit_counts m s).1
  have hge : ¬ (runToExit m s).stepCount < m := fun hlt => by simp [runGoesOn_iff.2 ⟨h, hlt⟩] at hend
  omega

/-- Settles O48: the loop ends by its condition, which with `running` set means that the budget is used up. -/
theorem runWithinBudget : Obligations.RunWithinBudget := by
  intro m e s
  obtain ⟨hle, hops⟩ := runToExit_counts m s
  refine ⟨hle, fun hr => ?_, rfl⟩
  have hsteps := runToExit_stepCount_of_running hr
  exact ⟨hsteps, (hops hr).trans hsteps⟩

/-- Settles O49: with no budget the loop ends where it begins, and nothing but the Summary is emitted. -/
theorem runZero : Obligations.RunZero := by
  intro e s
  have hcode : (hostRun 0 e s).2.code = .none := hostRun_code (es := []) (List.append_nil _).symm e
  show ((hostRun 0 e s).1, Response.ran { (hostRun 0 e s).2 with code := (hostRun 0 e s).2.code }) = _
  rw [hcode]
  rfl

/-- Settles O51: the elapsed time is read after the loop, by the Summary alone. -/
theorem elapsedOnlyInSummary : Obligations.ElapsedOnlyInSummary := by
  refine fun m e e' s => ⟨rfl, ?_⟩
  rw [hostRun_fst, hostRun_fst, State.emit_out, List.dropLast_concat]
  rfl

/-- Settles O50: the stop code says how the run stands at its loop exit, and its last event there decides the code. -/
theorem runStopCodes : Obligations.RunStopCodes := by
  intro m e s t r h
  obtain ⟨rfl, rfl⟩ := Prod.ext_iff.1 h
  obtain ⟨es, hout, hst⟩ := runToExit_runFrom m s
  obtain ⟨hnone, hcrash, hunknown, hhalt, hload⟩ := hst.stopCode_says
  have hout_iff (fs : List OutputEvent) (d : OutputEvent) := (hostRun_out_eq_iff m e s fs d).trans
    (show _ ↔ es = fs ++ [d] by rw [hout, List.append_cancel_left_eq])
  rw [hostRun_code hout e, RunResult.CleanEnd, hostRun_code hout e]
  simp only [hout_iff]
  refine ⟨⟨hnone, fun hr => ?_⟩, ⟨hcrash, ?_⟩, ⟨hunknown, ?_⟩, hhalt, hload⟩
  · exact (stopCode_quiet (hst.quiet hr) _).trans (if_pos hr)
  · rintro ⟨fs, n, rfl⟩; exact stopCode_crash _ _ _
  · rintro ⟨fs, op, a, -, -, -, rfl⟩
    exact stopCode_unknown (by simpa using hst.quiet_dropLast) _ _ _

end Sys2Proof.Machine
end

section
/-! A run stopped by its budget and run again (60_exceptions.md R189, R192, R194, R195, 10_state.md R36). -/
namespace Sys2Proof.Machine

/-! ## The first run, inside the run with the larger budget -/

/-- The loop's turns can be taken in two parts. -/
theorem runLoop_add (m j k : Nat) (s : State) : runLoop m (j + k) s = runLoop m k (runLoop m j s) := by
  induction j generalizing s with
  | zero => rw [Nat.zero_add]; rfl
  | succ j ih =>
    rw [Nat.succ_add]
    cases hg : runGoesOn m s with
    | false => rw [runLoop_of_stopped hg, runLoop_of_stopped hg, runLoop_of_stopped hg]
    | true => rw [runLoop_succ_of_goesOn hg, runLoop_succ_of_goesOn hg, ih]

/-- Turns that leave `running` set and stay within a budget are taken alike with a larger one. -/
theorem runLoop_larger_budget {m : Nat} (n j : Nat) {s : State} (hfit : s.stepCount + j ≤ m)
    (hr : (runLoop m j s).running = true) : runLoop (m + n) j s = runLoop m j s := by
  induction j generalizing s with
  | zero => rfl
  | succ j ih =>
    have hrun : s.running = true := by
      cases h : s.running with
      | true => rfl
      | false => rwa [runLoop_of_not_running h, h] at hr
    have hg : runGoesOn m s = true := runGoesOn_iff.2 ⟨hrun, by omega⟩
    have hg' : runGoesOn (m + n) s = true := runGoesOn_iff.2 ⟨hrun, by omega⟩
    rw [runLoop_succ_of_goesOn hg] at hr ⊢
    rw [runLoop_succ_of_goesOn hg']
    rcases runIteration_progress s with ⟨hc, -⟩ | ⟨hf, -⟩
    · exact ih (by omega) hr
    · rw [runLoop_of_not_running hf, runLoop_of_not_running hf]

/-- The larger run goes on from where the first one stopped by its budget. -/
theorem runToExit_add {m : Nat} (n : Nat) {s : State} (hr : (runToExit m s).running = true) :
    runToExit (m + n) s = runLoop (m + n) n (runToExit m s) := by
  have hfirst : runLoop (m + n) m (runBegin s) = runToExit m s := runLoop_larger_budget n m (by simp) hr
  rw [runToExit, runLoop_add, hfirst]

/-! ## The second run, beside the rest of the larger one -/

/-- The state `u` of the larger run and the state `v` of the second run: alike, with the counts of `u` ahead by the
`m` steps of the first run. -/
structure Resumed (m : Nat) (p q : List OutputEvent) (u v : State) : Prop where
  alike : AlikeFrom p q u v
  running : v.running = u.running
  steps : u.stepCount = m + v.stepCount
  ops : u.opCount = m + v.opCount

/-- A step leaves `running` as it was, but where its outcome is not `completed`. -/
theorem step_running {s t : State} (h : step s = .next t) :
    t.running = (s.running && decide (stepOutcome s = .completed)) := by
  obtain ⟨n, o, -, -, -, ho, he⟩ := step_next_effect h
  rw [ho]
  cases he <;> simp

theorem Resumed.runIteration {m : Nat} {p q : List OutputEvent} {u v : State} (h : Resumed m p q u v) :
    Resumed m p q (runIteration u) (runIteration v) := by
  have hops := h.ops
  have hsteps := h.steps
  rcases step_alike h.alike with ⟨t, t', ht, ht', halike, hout⟩ | ⟨addr, n, t, t', ht, ht', halike⟩
  · obtain ⟨hop, hstep⟩ := stepCountsOneOpcode u t ht
    obtain ⟨hop', hstep'⟩ := stepCountsOneOpcode v t' ht'
    rw [runIteration_of_next ht, runIteration_of_next ht']
    refine ⟨⟨halike.view, halike.events⟩, ?_, ?_, ?_⟩
    · show t'.running = t.running
      rw [step_running ht, step_running ht', hout, h.running]
    · simp only [State.countStep_stepCount]; omega
    · simp only [State.countStep_opCount]; omega
  · obtain ⟨-, -, -, -, rfl⟩ := faultLeavesFetchState _ _ _ _ ht
    obtain ⟨-, -, -, -, rfl⟩ := faultLeavesFetchState _ _ _ _ ht'
    rw [runIteration_of_fault ht, runIteration_of_fault ht']
    refine ⟨(halike.emit _).stop, rfl, hsteps, ?_⟩
    simp only [containFault_opCount, h.alike.ip_eq]
    split <;> omega

/-- Both loops go on together. -/
theorem Resumed.runLoop {m : Nat} {p q : List OutputEvent} {u v : State} (h : Resumed m p q u v) (n k : Nat) :
    Resumed m p q (runLoop (m + n) k u) (runLoop n k v) := by
  induction k generalizing u v with
  | zero => exact h
  | succ k ih =>
    have hgoes : runGoesOn (m + n) u = runGoesOn n v := by
      simp only [runGoesOn, h.running, h.steps, Nat.add_lt_add_iff_left]
    cases hg : runGoesOn n v with
    | false => rwa [runLoop_of_stopped hg, runLoop_of_stopped (hgoes.trans hg)]
    | true =>
      rw [runLoop_succ_of_goesOn hg, runLoop_succ_of_goesOn (hgoes.trans hg)]
      exact ih h.runIteration

/-- The second run begins alike to the exit of the first, which has used up its budget. -/
theorem resumed_start {m : Nat} {s : State} (e : Elapsed) (hr : (runToExit m s).running = true) :
    Resumed m (runToExit m s).out (hostRun m e s).1.out (runToExit m s) (runBegin (hostRun m e s).1) where
  alike := .start (s' := runBegin (hostRun m e s).1) ⟨rfl, rfl, rfl, rfl⟩
  running := hr.symm
  steps := runToExit_stepCount_of_running hr
  ops := ((runToExit_counts m s).2 hr).trans (runToExit_stepCount_of_running hr)

/-- Settles O52: the larger run is the first run's loop, then turns beside those of the second run; the first run's
events are no diagnostics, so the stop code is that of the second run's events. -/
theorem runResumesAfterBudget : Obligations.RunResumesAfterBudget := by
  intro m n e e' s t t₁ t₂ r r₁ r₂ h hr h₁ h₂
  obtain ⟨rfl, rfl⟩ := Prod.ext_iff.1 h
  obtain ⟨rfl, rfl⟩ := Prod.ext_iff.1 h₁
  obtain ⟨rfl, rfl⟩ := Prod.ext_iff.1 h₂
  have hres : Resumed m (runToExit m s).out (hostRun m e s).1.out (runToExit (m + n) s)
      (runToExit n (hostRun m e s).1) := by
    rw [runToExit_add n hr]
    exact (resumed_start e hr).runLoop n n
  obtain ⟨es, hes, hst⟩ := runToExit_runFrom m s
  obtain ⟨fs, hfs, hfs'⟩ := hres.alike.events
  have hes' : (runToExit (m + n) s).out = s.out ++ (es ++ fs) := by rw [hfs, hes, List.append_assoc]
  refine ⟨hres.alike.view, hres.running.symm, ?_, hres.steps, hres.ops, es, fs, ?_, ?_, ?_⟩
  · rw [hostRun_code hes', hostRun_code hfs', stopCode_quiet_append (hst.quiet hr), hres.running]
  · rw [hostRun_fst, State.emit_out, hes]
  · rw [hostRun_fst n, State.emit_out, hfs']
  · rw [hostRun_fst, State.emit_out, hes', List.append_assoc s.out es fs]

end Sys2Proof.Machine
end

section
/-! The host's commands: what each keeps, LOAD, and the reset values (10_state.md R37, R38, 20_memory.md R40, R47,
44_output.md R170, 70_reset_and_hazards.md R210, R211). -/
namespace Sys2Proof.Machine

/-! ## No command but LOAD writes memory -/

theorem hostStep_keeps_memory (s : State) : (hostStep s).1.mem = s.mem ∧ (hostStep s).1.memSize = s.memSize := by
  rcases hostStep_cases s with ⟨t, h, hh⟩ | ⟨addr, n, t, h, hh⟩ <;> rw [hh]
  · exact step_keeps_memory h
  · obtain ⟨-, -, -, -, rfl⟩ := faultLeavesFetchState _ _ _ _ h
    exact ⟨rfl, rfl⟩

theorem runIteration_keeps_memory (s : State) :
    (runIteration s).mem = s.mem ∧ (runIteration s).memSize = s.memSize := by
  rcases runIteration_cases s with ⟨t, h, hrun⟩ | ⟨addr, n, t, h, hrun⟩ <;> rw [hrun]
  · exact step_keeps_memory (t := t) h
  · obtain ⟨-, -, -, -, rfl⟩ := faultLeavesFetchState _ _ _ _ h
    exact ⟨rfl, rfl⟩

theorem runToExit_keeps_memory (m : Nat) (s : State) :
    (runToExit m s).mem = s.mem ∧ (runToExit m s).memSize = s.memSize :=
  runLoop_induct (P := fun t => t.mem = s.mem ∧ t.memSize = s.memSize)
    (fun t ⟨hmem, hsize⟩ _ =>
      have ⟨hmem', hsize'⟩ := runIteration_keeps_memory t
      ⟨hmem'.trans hmem, hsize'.trans hsize⟩)
    m ⟨rfl, rfl⟩

/-- Settles O36: steps keep the memory as it is, and so do RUN's turns. -/
theorem onlyLoadWritesMemory : Obligations.OnlyLoadWritesMemory := by
  refine ⟨fun s t h a => by rw [(step_keeps_memory h).1], fun c s hload hdefault a => ?_⟩
  cases c with
  | reset => rfl
  | load bs addr => exact absurd rfl (hload bs addr)
  | loadDefault bs => exact absurd rfl (hdefault bs)
  | step => exact congrArg (·.read a) (hostStep_keeps_memory s).1
  | run m e => exact congrArg (·.read a) (runToExit_keeps_memory m s).1
  | debugQuery => rfl

/-! ## LOAD -/

theorem hostLoad_of_fits {bytes : List Byte} {address : Nat} {s : State} (h : address + bytes.length ≤ s.memSize) :
    hostLoad bytes address s = ({ s with mem := s.mem.writeBytes address bytes, ip := address }, .ok) :=
  if_neg (by omega)

theorem hostLoad_of_outside {bytes : List Byte} {address : Nat} {s : State} (h : s.memSize < address + bytes.length) :
    hostLoad bytes address s = (s, .loadFault address bytes.length) := if_pos h

/-- Both forms of LOAD are a LOAD at an address, the one without it at 0. -/
theorem hostCommand_load {c : Command} {bytes : List Byte} {address : Nat}
    (hc : c = .load bytes address ∨ (c = .loadDefault bytes ∧ address = 0)) (s : State) :
    hostCommand c s = ((hostLoad bytes address s).1, .loaded (hostLoad bytes address s).2) := by
  rcases hc with rfl | ⟨rfl, rfl⟩ <;> rfl

/-- Settles O42: LOAD writes its bytes in order, and a later read finds them where they lie. -/
theorem loadCopiesBytes : Obligations.LoadCopiesBytes := by
  intro c bytes address s hc hwf hfit
  refine ⟨{ s with mem := s.mem.writeBytes address bytes, ip := address },
    by rw [hostCommand_load hc, hostLoad_of_fits hfit], rfl, fun k hk => ?_, fun a ha => ?_,
    rfl, rfl, rfl, rfl, rfl, rfl⟩
  · have hat : address ≤ address + k ∧ address + k - address < bytes.length := ⟨by omega, by omega⟩
    rw [Memory.read_writeBytes hwf, dif_pos hat]
    simp
  · rw [Memory.read_writeBytes hwf, dif_neg (by omega)]

/-- Settles O43: LOAD checks the whole range before it writes. -/
theorem loadFaultChangesNothing : Obligations.LoadFaultChangesNothing := by
  intro c bytes address s hc hout
  refine ⟨?_, rfl, rfl⟩
  rw [hostCommand_load hc, hostLoad_of_outside hout]

/-! ## The invariant, command by command -/

theorem hostStep_inv {s : State} (h : s.Inv) : (hostStep s).1.Inv := by
  rcases hostStep_cases s with ⟨t, hs, hh⟩ | ⟨addr, n, t, hs, hh⟩ <;> rw [hh]
  · exact (stepKeepsInvariant s t h hs).1
  · exact (faultKeepsInvariant s t addr n h hs).1

theorem runIteration_inv {s : State} (h : s.Inv) : (runIteration s).Inv := by
  rcases runIteration_cases s with ⟨t, hs, hrun⟩ | ⟨addr, n, t, hs, hrun⟩ <;> rw [hrun]
  · exact (stepKeepsInvariant s t h hs).1
  · exact (faultKeepsInvariant s t addr n h hs).1

theorem runToExit_inv (m : Nat) {s : State} (h : s.Inv) : (runToExit m s).Inv :=
  runLoop_induct (fun _ ht _ => runIteration_inv ht) m h

/-- STEP only appends to the output stream. -/
theorem hostStep_out (s : State) : ∃ es, (hostStep s).1.out = s.out ++ es := by
  rcases hostStep_cases s with ⟨t, h, hh⟩ | ⟨addr, n, t, h, hh⟩ <;> rw [hh]
  · obtain ⟨t', es, -, -, hout, -⟩ := (stepIgnoresHostState s s ⟨rfl, rfl, rfl, rfl⟩).1 t h
    exact ⟨es, hout⟩
  · exact ⟨[], by simp [(step_fault_frame h).2.2.2]⟩

/-- LOAD keeps the invariant: what it writes lies inside memory, and so does the address it sets IP to. -/
theorem hostLoad_keeps {bytes : List Byte} {address : Nat} {s : State} (h : s.Inv) :
    (hostLoad bytes address s).1.Inv ∧ (hostLoad bytes address s).1.memSize = s.memSize
      ∧ ∃ es, (hostLoad bytes address s).1.out = s.out ++ es := by
  rcases Nat.lt_or_ge s.memSize (address + bytes.length) with hout | hfit
  · rw [hostLoad_of_outside hout]
    exact ⟨h, rfl, [], by simp⟩
  · rw [hostLoad_of_fits hfit]
    obtain ⟨hpos, -, hwf, hcells⟩ := h
    refine ⟨⟨hpos, Nat.le_trans (Nat.le_add_right _ _) hfit, Memory.wf_writeBytes hwf _ _, fun x hx => ?_⟩, rfl, [],
      by simp⟩
    rcases Memory.mem_writeBytes hx with hold | ⟨-, hnew⟩
    · exact hcells x hold
    · exact Nat.lt_of_lt_of_le hnew hfit

/-- Settles O32: each command keeps the invariant by the rule of its own, RUN turn by turn. -/
theorem commandsKeepInvariant : Obligations.CommandsKeepInvariant := by
  intro c s h
  cases c with
  | reset => exact ⟨h.of_memory_eq rfl rfl (Nat.zero_le _), rfl, [], (List.append_nil _).symm⟩
  | load bytes address => exact hostLoad_keeps h
  | loadDefault bytes => exact hostLoad_keeps h
  | step => exact ⟨hostStep_inv h, (hostStep_keeps_memory s).2, hostStep_out s⟩
  | run m e =>
    obtain ⟨es, hout, -⟩ := runToExit_runFrom m s
    exact ⟨runToExit_inv m h, (runToExit_keeps_memory m s).2, _, by
      rw [hostCommand, hostRun_fst, State.emit_out, hout, List.append_assoc]⟩
  | debugQuery => exact ⟨h, rfl, [], (List.append_nil _).symm⟩

/-- A session keeps the invariant. -/
theorem hostSession_inv (cs : List Command) {s : State} (h : s.Inv) : (hostSession cs s).Inv := by
  induction cs generalizing s with
  | nil => exact h
  | cons c cs ih => exact ih (commandsKeepInvariant c s h).1

/-- Settles O33: power-on meets the invariant, and each command of the session keeps it. -/
theorem sessionsMeetInvariant : Obligations.SessionsMeetInvariant :=
  ⟨reference_wellFormed, fun _ cs h => hostSession_inv cs (powerOn_inv h)⟩

/-! ## Reset values and DEBUG_QUERY -/

/-- Registers that are all 0 read as 0. -/
theorem State.reg_of_regs_zero {s : State} (h : s.regs = Vector.replicate 8 0#32) (k : Fin 8) : s.reg k = 0#32 := by
  simp [State.reg, h]

/-- Settles O41: the registers are eight zeros at power-on and after RESET, and the rest is written out. -/
theorem resetValues : Obligations.ResetValues :=
  ⟨fun _ => ⟨State.reg_of_regs_zero rfl, rfl, rfl, rfl, rfl, rfl, rfl, rfl⟩, rfl, fun _ => rfl,
    fun s => ⟨hostReset s, rfl, State.reg_of_regs_zero rfl, rfl, rfl, rfl, rfl, rfl, rfl, rfl⟩⟩

/-- Settles O54: the query answers the snapshot and hands the state back. -/
theorem debugQueryReads : Obligations.DebugQueryReads := fun _ => rfl

end Sys2Proof.Machine
end

section
/-! The text of the events (44_output.md R160 to R165, 60_exceptions.md R192). -/
namespace Sys2Proof.Machine

/-! ## Print and Debug -/

/-- Only 0 is written with a leading 0. -/
theorem eq_zero_of_decimal_head {n : Nat} (h : (decimal n).head? = some '0') : n = 0 := by
  induction n using Nat.strongRecOn with
  | ind n ih =>
    by_cases hlt : n < 10
    · rw [decimal, Nat.toDigits_of_lt_base hlt] at h
      exact Nat.digitChar_eq_zero.1 (Option.some.inj h)
    · obtain ⟨c, cs, hcs⟩ := List.exists_cons_of_ne_nil (decimal_ne_nil (n / 10))
      rw [decimal, toDigits_step (by decide) (by omega), ← decimal, hcs] at h
      have := ih (n / 10) (by omega) (hcs ▸ h)
      omega

/-- Settles O55: `decimal` writes the number in digits, and a leading 0 says that the number is 0. -/
theorem printRendersDecimal : Obligations.PrintRendersDecimal := by
  refine fun v => ⟨readDecimal_decimal _, decimal_isDigit _, fun h => ?_⟩
  rw [render, eq_zero_of_decimal_head h]
  rfl

/-- Settles O56: the line is computed. -/
theorem debugRendersExample : Obligations.DebugRendersExample := by
  unfold Obligations.DebugRendersExample
  decide

/-! ## Hexadecimal digits -/

theorem hexByte_mem (u : Bool) (b : Byte) : ∀ c ∈ hexByte u b, c ∈ "0123456789abcdefABCDEF".toList := by
  have hb := b.isLt
  intro c hc
  simp only [hexByte, List.mem_cons, List.not_mem_nil, or_false] at hc
  rcases hc with rfl | rfl
  · exact letterCase_mem u _ (by omega)
  · exact letterCase_mem u _ (by omega)

theorem numeral_digit (st : NumeralStyle) (n : Nat) :
    ∀ c ∈ numeral st n, c ∈ "0123456789abcdefABCDEF".toList ∧ digitValue c < st.radix := by
  intro c hc
  obtain ⟨k, hk, rfl⟩ := numeral_mem st n c hc
  have hk16 : k < 16 := Nat.lt_of_lt_of_le hk (radix_bounds st).2
  exact ⟨letterCase_mem st.upper k hk16, by rwa [digitValue_letterCase st.upper k hk16]⟩

/-! ## No line holds a newline -/

theorem newline_not_mem_oneLine (cs : List Char) : '\n' ∉ oneLine cs := by simp [oneLine]

theorem newline_not_mem_decimal (n : Nat) : '\n' ∉ decimal n := numeralChar_ne_newline (decimal_numeralChar n)

theorem newline_not_mem_hexByte (u : Bool) (b : Byte) : '\n' ∉ hexByte u b :=
  fun h => absurd (hexByte_mem u b _ h) (by decide)

theorem newline_not_mem_numeral (st : NumeralStyle) (n : Nat) : '\n' ∉ numeral st n :=
  fun h => absurd (numeral_digit st n _ h).1 (by decide)

theorem newline_not_mem_debugLine (snap : Snapshot) : '\n' ∉ debugLine snap := by
  simp [debugLine, debugField, newline_not_mem_decimal]

/-! ## The unknown-opcode line in its two orders -/

theorem unknownOpcodeLine_of_opFirst (h : Config.unknownOpFirst = true) (op : Byte) (offset : Nat) :
    unknownOpcodeLine op offset = oneLine Config.unknownHead ++ hexByte Config.unknownHexUpper op
      ++ oneLine Config.unknownMiddle ++ numeral Config.unknownOffsetStyle offset ++ oneLine Config.unknownTail := by
  simp [unknownOpcodeLine, h]

theorem unknownOpcodeLine_of_offsetFirst (h : Config.unknownOpFirst = false) (op : Byte) (offset : Nat) :
    unknownOpcodeLine op offset = oneLine Config.unknownHead ++ numeral Config.unknownOffsetStyle offset
      ++ oneLine Config.unknownMiddle ++ hexByte Config.unknownHexUpper op ++ oneLine Config.unknownTail := by
  simp [unknownOpcodeLine, h]

theorem newline_not_mem_unknownOpcodeLine (op : Byte) (offset : Nat) : '\n' ∉ unknownOpcodeLine op offset := by
  cases hfirst : Config.unknownOpFirst with
  | true =>
    simp [unknownOpcodeLine_of_opFirst hfirst, newline_not_mem_oneLine, newline_not_mem_hexByte, newline_not_mem_numeral]
  | false =>
    simp [unknownOpcodeLine_of_offsetFirst hfirst, newline_not_mem_oneLine, newline_not_mem_hexByte,
      newline_not_mem_numeral]

/-- The unknown-opcode line tells its two fields: the hexadecimal digits are two, and the words are fixed. -/
theorem unknownOpcodeLine_injective {op op' : Byte} {offset offset' : Nat}
    (h : unknownOpcodeLine op offset = unknownOpcodeLine op' offset') : op = op' ∧ offset = offset' := by
  cases hfirst : Config.unknownOpFirst with
  | true =>
    simp only [unknownOpcodeLine_of_opFirst hfirst, List.append_assoc, List.append_cancel_left_eq] at h
    obtain ⟨hhex, hrest⟩ := List.append_inj h rfl
    exact ⟨hexByte_injective hhex, numeral_injective (List.append_cancel_right (List.append_cancel_left hrest))⟩
  | false =>
    simp only [unknownOpcodeLine_of_offsetFirst hfirst, List.append_cancel_right_eq] at h
    obtain ⟨hrest, hhex⟩ := List.append_inj' h rfl
    exact ⟨hexByte_injective hhex, numeral_injective (List.append_cancel_left (List.append_cancel_right hrest))⟩

/-- Settles O58: the two orders of the line are the two forms of the statement, the radix that of the offset's style. -/
theorem unknownOpcodeLineReports : Obligations.UnknownOpcodeLineReports := by
  obtain ⟨hmin, hmax⟩ := radix_bounds Config.unknownOffsetStyle
  refine ⟨Config.unknownOffsetStyle.radix, hmin, hmax, fun op offset => ?_⟩
  refine ⟨hexByte Config.unknownHexUpper op, numeral Config.unknownOffsetStyle offset, oneLine Config.unknownHead,
    oneLine Config.unknownMiddle, oneLine Config.unknownTail, ?_, rfl, readNumeral_hexByte _ _, hexByte_mem _ _,
    numeral_ne_nil _ _, readNumeral_numeral _ _, numeral_digit _ _⟩
  cases hfirst : Config.unknownOpFirst with
  | true => exact .inl (unknownOpcodeLine_of_opFirst hfirst op offset)
  | false => exact .inr (unknownOpcodeLine_of_offsetFirst hfirst op offset)

/-! ## The fields of the summary line -/

section
variable {order : SummaryOrder} {a b c a' b' c' : List Char}

/-- In any order the three places hold the three fields. -/
theorem summaryFields_perm : [(summaryFields order a b c).1, (summaryFields order a b c).2.1,
    (summaryFields order a b c).2.2].Perm [a, b, c] := by
  cases order with
  | stepsOpsElapsed => exact .refl _
  | stepsElapsedOps => exact .cons _ (.swap _ _ _)
  | opsStepsElapsed => exact .swap _ _ _
  | opsElapsedSteps => exact (List.Perm.cons b (.swap a c [])).trans (.swap a b [c])
  | elapsedStepsOps => exact (List.Perm.swap a c [b]).trans (.cons a (.swap b c []))
  | elapsedOpsSteps => exact (List.reverse_perm [a, b, c])

/-- What all three fields meet, the text in each place meets. -/
theorem summaryFields_forall {P : List Char → Prop} (ha : P a) (hb : P b) (hc : P c) :
    P (summaryFields order a b c).1 ∧ P (summaryFields order a b c).2.1 ∧ P (summaryFields order a b c).2.2 := by
  have h : ∀ x ∈ [a, b, c], P x := by simp [ha, hb, hc]
  have hmem {x : List Char} := (summaryFields_perm (order := order) (a := a) (b := b) (c := c)).mem_iff (a := x)
  exact ⟨h _ (hmem.1 (by simp)), h _ (hmem.1 (by simp)), h _ (hmem.1 (by simp))⟩

/-- The places tell the fields. -/
theorem summaryFields_injective (h1 : (summaryFields order a b c).1 = (summaryFields order a' b' c').1)
    (h2 : (summaryFields order a b c).2.1 = (summaryFields order a' b' c').2.1)
    (h3 : (summaryFields order a b c).2.2 = (summaryFields order a' b' c').2.2) : a = a' ∧ b = b' ∧ c = c' := by
  cases order with
  | stepsOpsElapsed => exact ⟨h1, h2, h3⟩
  | stepsElapsedOps => exact ⟨h1, h3, h2⟩
  | opsStepsElapsed => exact ⟨h2, h1, h3⟩
  | opsElapsedSteps => exact ⟨h3, h1, h2⟩
  | elapsedStepsOps => exact ⟨h2, h3, h1⟩
  | elapsedOpsSteps => exact ⟨h3, h2, h1⟩

end

/-- The three texts of a summary line, in their places. -/
def summaryTexts (steps ops : Nat) (elapsed : Rat) : List Char × List Char × List Char :=
  summaryFields Config.summaryOrder (decimal steps) (decimal ops) (secondsText elapsed)

theorem summaryLine_eq (steps ops : Nat) (elapsed : Rat) : summaryLine steps ops elapsed =
    oneLine Config.summaryHead ++ (summaryTexts steps ops elapsed).1 ++ gap Config.summaryMiddle1
      ++ (summaryTexts steps ops elapsed).2.1 ++ gap Config.summaryMiddle2 ++ (summaryTexts steps ops elapsed).2.2
      ++ oneLine Config.summaryTail := rfl

/-- Each text of a summary line is made of the characters of numbers. -/
theorem summaryTexts_numeralChar (steps ops : Nat) (elapsed : Rat) :
    (∀ c ∈ (summaryTexts steps ops elapsed).1, numeralChar c = true)
      ∧ (∀ c ∈ (summaryTexts steps ops elapsed).2.1, numeralChar c = true)
      ∧ ∀ c ∈ (summaryTexts steps ops elapsed).2.2, numeralChar c = true :=
  summaryFields_forall (P := fun cs => ∀ c ∈ cs, numeralChar c = true) (decimal_numeralChar steps)
    (decimal_numeralChar ops) (secondsText_numeralChar elapsed)

theorem newline_not_mem_summaryLine (steps ops : Nat) (elapsed : Rat) : '\n' ∉ summaryLine steps ops elapsed := by
  obtain ⟨h1, h2, h3⟩ := summaryTexts_numeralChar steps ops elapsed
  simp [summaryLine_eq, newline_not_mem_oneLine, gap_not_newline, numeralChar_ne_newline h1, numeralChar_ne_newline h2,
    numeralChar_ne_newline h3]

/-- The summary line tells its steps and its operation count: a gap ends each of the first two numbers. -/
theorem summaryLine_injective {steps steps' ops ops' : Nat} {elapsed elapsed' : Rat}
    (h : summaryLine steps ops elapsed = summaryLine steps' ops' elapsed') : steps = steps' ∧ ops = ops' := by
  obtain ⟨hx, hy, -⟩ := summaryTexts_numeralChar steps ops elapsed
  obtain ⟨hx', hy', -⟩ := summaryTexts_numeralChar steps' ops' elapsed'
  simp only [summaryLine_eq, List.append_assoc, List.append_cancel_left_eq] at h
  obtain ⟨h1, hrest⟩ := gap_cancel hx hx' h
  obtain ⟨h2, hlast⟩ := gap_cancel hy hy' hrest
  obtain ⟨hsteps, hops, -⟩ := summaryFields_injective h1 h2 (List.append_cancel_right hlast)
  exact ⟨decimal_injective hsteps, decimal_injective hops⟩

/-- Settles O57: each part of a line is free of newlines. -/
theorem eventsRenderOneLine : Obligations.EventsRenderOneLine := by
  intro ev
  match ev with
  | .print v => exact newline_not_mem_decimal _
  | .debug snap => exact newline_not_mem_debugLine snap
  | .unknownOpcodeDiag op offset => exact newline_not_mem_unknownOpcodeLine op offset
  | .crashDiag (.outOfRange addr n) => exact newline_not_mem_oneLine _
  | .crashDiag .unexpected => exact newline_not_mem_oneLine _
  | .summary steps ops elapsed => exact newline_not_mem_summaryLine steps ops elapsed

/-- Settles O60: the fixed words of each line let its fields be cut out again. -/
theorem diagnosticLinesTellFields : Obligations.DiagnosticLinesTellFields :=
  ⟨fun _ _ _ _ => unknownOpcodeLine_injective, fun _ _ _ _ _ _ => summaryLine_injective⟩

/-! ## The elapsed time -/

/-- Digits read after others: each moves the number before it up by one place. -/
theorem readDecimal_append (as bs : List Char) :
    readDecimal (as ++ bs) = readDecimal as * 10 ^ bs.length + readDecimal bs := by
  induction bs generalizing as with
  | nil => simp [readDecimal]
  | cons b bs ih =>
    have hcons := ih [b]
    rw [List.singleton_append] at hcons
    have hb : readDecimal [b] = b.toNat - '0'.toNat := by simp [readDecimal]
    rw [List.append_cons, ih, hcons, hb, readDecimal_append_digit, List.length_cons, Nat.pow_succ, Nat.add_mul,
      Nat.mul_assoc, Nat.mul_comm 10, Nat.add_assoc]

/-- The digits shown after the point. -/
def fractionDigits (places units : Nat) : List Char :=
  if places = 0 then [] else zeroPad places (decimal (units % 10 ^ places))

theorem length_fractionDigits (places units : Nat) : (fractionDigits places units).length = places := by
  unfold fractionDigits
  split
  · next h => exact h.symm
  · next h =>
    have hlt : units % 10 ^ places < 10 ^ places := Nat.mod_lt _ (Nat.pow_pos (by decide))
    have hle := (Nat.length_toDigits_le_iff (b := 10) (by decide) (Nat.pos_of_ne_zero h)).2 hlt
    rw [zeroPad_length, decimal, Nat.max_eq_left hle]

theorem readDecimal_fractionDigits (places units : Nat) :
    readDecimal (fractionDigits places units) = units % 10 ^ places := by
  unfold fractionDigits
  split
  · next h => simp [h, readDecimal, Nat.mod_one]
  · rw [zeroPad, readDecimal_zeros, readDecimal_decimal]

/-- With digits after the point, they are all digits and at least one. -/
theorem isDigits_fractionDigits {places : Nat} (h : places ≠ 0) (units : Nat) :
    IsDigits (fractionDigits places units) := by
  refine ⟨fun hnil => h ?_, fun c hc => ?_⟩
  · rw [← length_fractionDigits places units, hnil]; rfl
  · rw [fractionDigits, if_neg h, zeroPad, List.mem_append, List.mem_replicate] at hc
    rcases hc with ⟨-, rfl⟩ | hc
    · decide
    · exact decimal_isDigit _ c hc

/-- The digits before and after the point write the units. -/
theorem readDecimal_units (places units : Nat) :
    readDecimal (decimal (units / 10 ^ places) ++ fractionDigits places units) = units := by
  rw [readDecimal_append, readDecimal_decimal, length_fractionDigits, readDecimal_fractionDigits]
  exact Nat.div_add_mod' units _

/-- The text of an elapsed time shows it. -/
theorem showsRational_secondsText (q : Rat) : ShowsRational (secondsText q) q := by
  obtain ⟨hlow, hhigh⟩ := elapsedUnits_near q
  refine ⟨if q.num < 0 then ['-'] else [], decimal (elapsedUnits q / 10 ^ Config.elapsedPlaces q),
    fractionDigits (Config.elapsedPlaces q) (elapsedUnits q),
    if Config.elapsedPlaces q = 0 then [] else '.' :: fractionDigits (Config.elapsedPlaces q) (elapsedUnits q),
    ?text, ?sign, ⟨decimal_ne_nil _, decimal_isDigit _⟩, ?point, ?low, ?high⟩
  case text =>
    rw [secondsText]
    by_cases h : Config.elapsedPlaces q = 0 <;> simp [h, fractionDigits]
  case sign =>
    by_cases h : q.num < 0
    · exact .inl ⟨h, if_pos h⟩
    · exact .inr ⟨by omega, if_neg h⟩
  case point =>
    by_cases h : Config.elapsedPlaces q = 0
    · exact .inl ⟨if_pos h, if_pos h⟩
    · exact .inr ⟨isDigits_fractionDigits h _, if_neg h⟩
  case low => rwa [length_fractionDigits, readDecimal_units]
  case high => rwa [length_fractionDigits, readDecimal_units]

/-- Settles O59: the three texts stand in their places between the words, and each shows its field. -/
theorem summaryLineReports : Obligations.SummaryLineReports := fun steps ops elapsed =>
  ⟨decimal steps, decimal ops, secondsText elapsed, oneLine Config.summaryHead, gap Config.summaryMiddle1,
    gap Config.summaryMiddle2, oneLine Config.summaryTail, (summaryTexts steps ops elapsed).1,
    (summaryTexts steps ops elapsed).2.1, (summaryTexts steps ops elapsed).2.2, summaryLine_eq steps ops elapsed,
    summaryFields_perm, ⟨decimal_ne_nil _, decimal_isDigit _⟩, readDecimal_decimal _,
    ⟨decimal_ne_nil _, decimal_isDigit _⟩, readDecimal_decimal _, showsRational_secondsText elapsed⟩

end Sys2Proof.Machine
end
